-- ==== Sys2Proof/Word.lean ====
section
/-! DEFINITION. The widths of the machine's words (00_scope.md R9, 30_encoding.md R91). -/

namespace Sys2Proof

/-- A memory byte, a general register, a timer or the immediate `kk` (00_scope.md R3). -/
abbrev Byte := BitVec 8

/-- An instruction word, the index register, the program counter or a stack slot. -/
abbrev Word := BitVec 16

/-- A register field, `x` or `y`: every value names a register (10_state.md R21). -/
abbrev Reg := BitVec 4

/-- The nibble immediate `n` (30_encoding.md R91). -/
abbrev Nibble := BitVec 4

/-- The address immediate `nnn` (30_encoding.md R91). -/
abbrev Addr12 := BitVec 12

/-- Register 15, the flag register `VF` (10_state.md R22). -/
abbrev Reg.flag : Reg := 15

/-- An immediate address brought to the width of `I` and `pc` (30_encoding.md R93). -/
abbrev Addr12.toWord (a : Addr12) : Word := a.setWidth 16

end Sys2Proof
end

