-- ==== Sys2Proof/Syntax.lean ====
section
/-! DEFINITION. The 35 instructions (30_encoding.md R97), one constructor per row, with the fields the row uses. -/

namespace Sys2Proof

/-- The instructions in the order of R97. `SHR` and `SHL` have no `y`: the decoder ignores it (R101). -/
inductive Instr where
  /-- 1. `CLS` -/
  | cls
  /-- 2. `RET` -/
  | ret
  /-- 3. `SYS nnn` -/
  | sys (nnn : Addr12)
  /-- 4. `JP nnn` -/
  | jp (nnn : Addr12)
  /-- 5. `CALL nnn` -/
  | call (nnn : Addr12)
  /-- 6. `SE Vx, kk` -/
  | seByte (x : Reg) (kk : Byte)
  /-- 7. `SNE Vx, kk` -/
  | sneByte (x : Reg) (kk : Byte)
  /-- 8. `SE Vx, Vy` -/
  | seReg (x y : Reg)
  /-- 9. `LD Vx, kk` -/
  | ldByte (x : Reg) (kk : Byte)
  /-- 10. `ADD Vx, kk` -/
  | addByte (x : Reg) (kk : Byte)
  /-- 11. `LD Vx, Vy` -/
  | ldReg (x y : Reg)
  /-- 12. `OR Vx, Vy` -/
  | or (x y : Reg)
  /-- 13. `AND Vx, Vy` -/
  | and (x y : Reg)
  /-- 14. `XOR Vx, Vy` -/
  | xor (x y : Reg)
  /-- 15. `ADD Vx, Vy` -/
  | addReg (x y : Reg)
  /-- 16. `SUB Vx, Vy` -/
  | sub (x y : Reg)
  /-- 17. `SHR Vx` -/
  | shr (x : Reg)
  /-- 18. `SUBN Vx, Vy` -/
  | subn (x y : Reg)
  /-- 19. `SHL Vx` -/
  | shl (x : Reg)
  /-- 20. `SNE Vx, Vy` -/
  | sneReg (x y : Reg)
  /-- 21. `LD I, nnn` -/
  | ldI (nnn : Addr12)
  /-- 22. `JP V0, nnn` -/
  | jpV0 (nnn : Addr12)
  /-- 23. `RND Vx, kk` -/
  | rnd (x : Reg) (kk : Byte)
  /-- 24. `DRW Vx, Vy, n` -/
  | drw (x y : Reg) (n : Nibble)
  /-- 25. `SKP Vx` -/
  | skp (x : Reg)
  /-- 26. `SKNP Vx` -/
  | sknp (x : Reg)
  /-- 27. `LD Vx, DT` -/
  | readDT (x : Reg)
  /-- 28. `LD Vx, K` -/
  | waitKey (x : Reg)
  /-- 29. `LD DT, Vx` -/
  | setDT (x : Reg)
  /-- 30. `LD ST, Vx` -/
  | setST (x : Reg)
  /-- 31. `ADD I, Vx` -/
  | addI (x : Reg)
  /-- 32. `LD F, Vx` -/
  | ldFont (x : Reg)
  /-- 33. `LD B, Vx` -/
  | ldBcd (x : Reg)
  /-- 34. `LD [I], Vx` -/
  | storeRegs (x : Reg)
  /-- 35. `LD Vx, [I]` -/
  | loadRegs (x : Reg)
  deriving DecidableEq, Repr

end Sys2Proof
end

