-- ==== Sys2Proof/Decode.lean ====
section
/-! DEFINITION. The fields of an instruction word, the decoder (30_encoding.md R98), the descriptor table it agrees
with (R97), the encoder, and the identity and operands of an instruction as the trace lists them (R93). -/

namespace Sys2Proof

/-! The fields of R91. -/

/-- The primary opcode, bits 15:12. -/
def Field.op (w : Word) : Nibble := w.extractLsb' 12 4

/-- The first register index, bits 11:8. -/
def Field.x (w : Word) : Reg := w.extractLsb' 8 4

/-- The second register index, bits 7:4. -/
def Field.y (w : Word) : Reg := w.extractLsb' 4 4

/-- The nibble immediate or secondary opcode, bits 3:0. -/
def Field.n (w : Word) : Nibble := w.extractLsb' 0 4

/-- The byte immediate or secondary opcode, bits 7:0. -/
def Field.kk (w : Word) : Byte := w.extractLsb' 0 8

/-- The address immediate, bits 11:0. -/
def Field.nnn (w : Word) : Addr12 := w.extractLsb' 0 12

/-- The word of two bytes of memory: the byte at the lower address is the high byte (20_memory.md R62). -/
def wordOfBytes (hi lo : Byte) : Word := hi ++ lo

/-- The byte of a word at the lower address (R90). -/
def highByte (w : Word) : Byte := w.extractLsb' 8 8

/-- The byte of a word at the higher address (R90). -/
def lowByte (w : Word) : Byte := w.extractLsb' 0 8

/-! The decoder, by primary opcode (R98). -/

/-- `op = 0`: the two exact words before `SYS` (R96). -/
def decodeOp0 (w : Word) : Instr :=
  if w = 0x00E0 then .cls else if w = 0x00EE then .ret else .sys (Field.nnn w)

/-- `op = 8`: the nine register instructions by their low nibble; the other seven are illegal. -/
def decodeOp8 (x y : Reg) (n : Nat) : Option Instr :=
  match n with
  | 0x0 => some (.ldReg x y)
  | 0x1 => some (.or x y)
  | 0x2 => some (.and x y)
  | 0x3 => some (.xor x y)
  | 0x4 => some (.addReg x y)
  | 0x5 => some (.sub x y)
  | 0x6 => some (.shr x)
  | 0x7 => some (.subn x y)
  | 0xE => some (.shl x)
  | _ => none

/-- `op = E`: the two key skips by their low byte. -/
def decodeOpE (x : Reg) (kk : Nat) : Option Instr :=
  match kk with
  | 0x9E => some (.skp x)
  | 0xA1 => some (.sknp x)
  | _ => none

/-- `op = F`: the nine one-register instructions by their low byte. -/
def decodeOpF (x : Reg) (kk : Nat) : Option Instr :=
  match kk with
  | 0x07 => some (.readDT x)
  | 0x0A => some (.waitKey x)
  | 0x15 => some (.setDT x)
  | 0x18 => some (.setST x)
  | 0x1E => some (.addI x)
  | 0x29 => some (.ldFont x)
  | 0x33 => some (.ldBcd x)
  | 0x55 => some (.storeRegs x)
  | 0x65 => some (.loadRegs x)
  | _ => none

/-- The decoder, total on all 65536 words; `none` is "no match", which makes the step raise (R95, R98, R99). -/
def decodeWord (w : Word) : Option Instr :=
  match (Field.op w).toNat with
  | 0x0 => some (decodeOp0 w)
  | 0x1 => some (.jp (Field.nnn w))
  | 0x2 => some (.call (Field.nnn w))
  | 0x3 => some (.seByte (Field.x w) (Field.kk w))
  | 0x4 => some (.sneByte (Field.x w) (Field.kk w))
  | 0x5 => if Field.n w = 0 then some (.seReg (Field.x w) (Field.y w)) else none
  | 0x6 => some (.ldByte (Field.x w) (Field.kk w))
  | 0x7 => some (.addByte (Field.x w) (Field.kk w))
  | 0x8 => decodeOp8 (Field.x w) (Field.y w) (Field.n w).toNat
  | 0x9 => if Field.n w = 0 then some (.sneReg (Field.x w) (Field.y w)) else none
  | 0xA => some (.ldI (Field.nnn w))
  | 0xB => some (.jpV0 (Field.nnn w))
  | 0xC => some (.rnd (Field.x w) (Field.kk w))
  | 0xD => some (.drw (Field.x w) (Field.y w) (Field.n w))
  | 0xE => decodeOpE (Field.x w) (Field.kk w).toNat
  | 0xF => decodeOpF (Field.x w) (Field.kk w).toNat
  | _ => none

/-- What the decoder makes of a list of bytes. -/
inductive Decoded where
  /-- The first two bytes are this instruction; the rest of the list follows it. -/
  | instr (i : Instr) (rest : List Byte)
  /-- The first two bytes are a word that matches no descriptor (R99). -/
  | unimplemented (w : Word)
  /-- There are fewer than the two bytes of an instruction (R90). -/
  | truncated
  deriving DecidableEq, Repr

/-- The decoder on bytes in the order of their addresses. -/
def decodeBytes : List Byte → Decoded
  | hi :: lo :: rest =>
    match decodeWord (wordOfBytes hi lo) with
    | some i => .instr i rest
    | none => .unimplemented (wordOfBytes hi lo)
  | [_] => .truncated
  | [] => .truncated

/-- The first word of an instruction numbered as the opcode table numbers it: the bits above `nbits` are zero. -/
def tableWord (nbits w : Nat) : Word := BitVec.ofNat 16 (w % 2 ^ nbits)

/-- The instruction the decoder reads from a word of the opcode table, laid out in memory as R90 says. -/
def decodeTableWord (nbits w : Nat) : Option Instr :=
  match decodeBytes [highByte (tableWord nbits w), lowByte (tableWord nbits w)] with
  | .instr i _ => some i
  | .unimplemented _ => none
  | .truncated => none

/-! The encoder, by format (R94). -/

/-- Format A: an address. -/
def formatA (op : Nibble) (nnn : Addr12) : Word := op ++ nnn

/-- Formats XK and X: a register and a byte, which is an immediate or a secondary opcode. -/
def formatXK (op : Nibble) (x : Reg) (kk : Byte) : Word := (op ++ x) ++ kk

/-- Formats XY and XYN: two registers and a nibble, which is a secondary opcode or an immediate. -/
def formatXYN (op : Nibble) (x y : Reg) (n : Nibble) : Word := (op ++ x) ++ (y ++ n)

/-- The word of an instruction; `SHR` and `SHL` with zero in the ignored field (R97, R105). -/
def encode : Instr → Word
  | .cls => 0x00E0
  | .ret => 0x00EE
  | .sys nnn => formatA 0x0 nnn
  | .jp nnn => formatA 0x1 nnn
  | .call nnn => formatA 0x2 nnn
  | .seByte x kk => formatXK 0x3 x kk
  | .sneByte x kk => formatXK 0x4 x kk
  | .seReg x y => formatXYN 0x5 x y 0x0
  | .ldByte x kk => formatXK 0x6 x kk
  | .addByte x kk => formatXK 0x7 x kk
  | .ldReg x y => formatXYN 0x8 x y 0x0
  | .or x y => formatXYN 0x8 x y 0x1
  | .and x y => formatXYN 0x8 x y 0x2
  | .xor x y => formatXYN 0x8 x y 0x3
  | .addReg x y => formatXYN 0x8 x y 0x4
  | .sub x y => formatXYN 0x8 x y 0x5
  | .shr x => formatXYN 0x8 x 0x0 0x6
  | .subn x y => formatXYN 0x8 x y 0x7
  | .shl x => formatXYN 0x8 x 0x0 0xE
  | .sneReg x y => formatXYN 0x9 x y 0x0
  | .ldI nnn => formatA 0xA nnn
  | .jpV0 nnn => formatA 0xB nnn
  | .rnd x kk => formatXK 0xC x kk
  | .drw x y n => formatXYN 0xD x y n
  | .skp x => formatXK 0xE x 0x9E
  | .sknp x => formatXK 0xE x 0xA1
  | .readDT x => formatXK 0xF x 0x07
  | .waitKey x => formatXK 0xF x 0x0A
  | .setDT x => formatXK 0xF x 0x15
  | .setST x => formatXK 0xF x 0x18
  | .addI x => formatXK 0xF x 0x1E
  | .ldFont x => formatXK 0xF x 0x29
  | .ldBcd x => formatXK 0xF x 0x33
  | .storeRegs x => formatXK 0xF x 0x55
  | .loadRegs x => formatXK 0xF x 0x65

/-! The descriptor table (R97) and the source's rule for scanning it (R95, R96). -/

/-- One descriptor: the row's number in R97, its mask and its match. -/
structure Descriptor where
  row : Nat
  mask : Word
  pat : Word
  deriving DecidableEq, Repr

/-- A word selects a descriptor when `w & mask = match` (R95). -/
def Descriptor.selects (d : Descriptor) (w : Word) : Bool := w &&& d.mask == d.pat

/-- Rows 1 to 19 of R97. -/
def descriptorsLow : List Descriptor :=
  [⟨1, 0xFFFF, 0x00E0⟩, ⟨2, 0xFFFF, 0x00EE⟩, ⟨3, 0xF000, 0x0000⟩, ⟨4, 0xF000, 0x1000⟩, ⟨5, 0xF000, 0x2000⟩,
   ⟨6, 0xF000, 0x3000⟩, ⟨7, 0xF000, 0x4000⟩, ⟨8, 0xF00F, 0x5000⟩, ⟨9, 0xF000, 0x6000⟩, ⟨10, 0xF000, 0x7000⟩] ++
  [⟨11, 0xF00F, 0x8000⟩, ⟨12, 0xF00F, 0x8001⟩, ⟨13, 0xF00F, 0x8002⟩, ⟨14, 0xF00F, 0x8003⟩, ⟨15, 0xF00F, 0x8004⟩,
   ⟨16, 0xF00F, 0x8005⟩, ⟨17, 0xF00F, 0x8006⟩, ⟨18, 0xF00F, 0x8007⟩, ⟨19, 0xF00F, 0x800E⟩]

/-- Rows 20 to 35 of R97. -/
def descriptorsHigh : List Descriptor :=
  [⟨20, 0xF00F, 0x9000⟩, ⟨21, 0xF000, 0xA000⟩, ⟨22, 0xF000, 0xB000⟩, ⟨23, 0xF000, 0xC000⟩, ⟨24, 0xF000, 0xD000⟩,
   ⟨25, 0xF0FF, 0xE09E⟩, ⟨26, 0xF0FF, 0xE0A1⟩] ++
  [⟨27, 0xF0FF, 0xF007⟩, ⟨28, 0xF0FF, 0xF00A⟩, ⟨29, 0xF0FF, 0xF015⟩, ⟨30, 0xF0FF, 0xF018⟩, ⟨31, 0xF0FF, 0xF01E⟩,
   ⟨32, 0xF0FF, 0xF029⟩, ⟨33, 0xF0FF, 0xF033⟩, ⟨34, 0xF0FF, 0xF055⟩, ⟨35, 0xF0FF, 0xF065⟩]

/-- The 35 descriptors in the order of the scan: `CLS` and `RET` stand before `SYS` (R96). -/
def descriptors : List Descriptor := descriptorsLow ++ descriptorsHigh

/-- The first descriptor that selects the word, as its row number; `none` is the illegal word (R95). -/
def scanTable (w : Word) : Option Nat := (descriptors.find? (·.selects w)).map (·.row)

/-- The instruction's identity: its row in R97. -/
def Instr.row : Instr → Nat
  | .cls => 1
  | .ret => 2
  | .sys _ => 3
  | .jp _ => 4
  | .call _ => 5
  | .seByte _ _ => 6
  | .sneByte _ _ => 7
  | .seReg _ _ => 8
  | .ldByte _ _ => 9
  | .addByte _ _ => 10
  | .ldReg _ _ => 11
  | .or _ _ => 12
  | .and _ _ => 13
  | .xor _ _ => 14
  | .addReg _ _ => 15
  | .sub _ _ => 16
  | .shr _ => 17
  | .subn _ _ => 18
  | .shl _ => 19
  | .sneReg _ _ => 20
  | .ldI _ => 21
  | .jpV0 _ => 22
  | .rnd _ _ => 23
  | .drw _ _ _ => 24
  | .skp _ => 25
  | .sknp _ => 26
  | .readDT _ => 27
  | .waitKey _ => 28
  | .setDT _ => 29
  | .setST _ => 30
  | .addI _ => 31
  | .ldFont _ => 32
  | .ldBcd _ => 33
  | .storeRegs _ => 34
  | .loadRegs _ => 35

/-- The operands as the trace lists them: `x`, `y`, then the immediate (R93). -/
def Instr.operands : Instr → List Nat
  | .cls => []
  | .ret => []
  | .sys nnn => [nnn.toNat]
  | .jp nnn => [nnn.toNat]
  | .call nnn => [nnn.toNat]
  | .seByte x kk => [x.toNat, kk.toNat]
  | .sneByte x kk => [x.toNat, kk.toNat]
  | .seReg x y => [x.toNat, y.toNat]
  | .ldByte x kk => [x.toNat, kk.toNat]
  | .addByte x kk => [x.toNat, kk.toNat]
  | .ldReg x y => [x.toNat, y.toNat]
  | .or x y => [x.toNat, y.toNat]
  | .and x y => [x.toNat, y.toNat]
  | .xor x y => [x.toNat, y.toNat]
  | .addReg x y => [x.toNat, y.toNat]
  | .sub x y => [x.toNat, y.toNat]
  | .shr x => [x.toNat]
  | .subn x y => [x.toNat, y.toNat]
  | .shl x => [x.toNat]
  | .sneReg x y => [x.toNat, y.toNat]
  | .ldI nnn => [nnn.toNat]
  | .jpV0 nnn => [nnn.toNat]
  | .rnd x kk => [x.toNat, kk.toNat]
  | .drw x y n => [x.toNat, y.toNat, n.toNat]
  | .skp x => [x.toNat]
  | .sknp x => [x.toNat]
  | .readDT x => [x.toNat]
  | .waitKey x => [x.toNat]
  | .setDT x => [x.toNat]
  | .setST x => [x.toNat]
  | .addI x => [x.toNat]
  | .ldFont x => [x.toNat]
  | .ldBcd x => [x.toNat]
  | .storeRegs x => [x.toNat]
  | .loadRegs x => [x.toNat]

end Sys2Proof
end

