-- ==== Sys2Proof/Config.lean ====
section
/-! DEFINITION. What an implementation fixes (the two OPEN parameters of 00_scope.md R10) and the one free value (the
drawn byte of `RND`). -/

namespace Sys2Proof

/-- The named parameters that the spec says a model takes as an argument (R10; 92_eei_decisions.md D15, D23). A state
carries them and no step changes them (log 3). -/
structure Params where
  /-- `BULK_INCLUSIVE`: whether the bulk instructions move `V[x]` itself (44_memory_bcd_font.md R213). -/
  bulkInclusive : Bool
  /-- `FONT`: the bytes of addresses 0 to 79 after load (20_memory.md R68). -/
  font : Vector Byte 80
  deriving DecidableEq, Repr

/-- The glyphs 0 to 7 of the default font (R68). -/
def Config.fontLow : List Byte :=
  [0xF0, 0x90, 0x90, 0x90, 0xF0] ++
  [0x20, 0x60, 0x20, 0x20, 0x70] ++
  [0xF0, 0x10, 0xF0, 0x80, 0xF0] ++
  [0xF0, 0x10, 0xF0, 0x10, 0xF0] ++
  [0x90, 0x90, 0xF0, 0x10, 0x10] ++
  [0xF0, 0x80, 0xF0, 0x10, 0xF0] ++
  [0xF0, 0x80, 0xF0, 0x90, 0xF0] ++
  [0xF0, 0x10, 0x20, 0x40, 0x40]

/-- The glyphs 8 to F of the default font (R68). -/
def Config.fontHigh : List Byte :=
  [0xF0, 0x90, 0xF0, 0x90, 0xF0] ++
  [0xF0, 0x90, 0xF0, 0x10, 0xF0] ++
  [0xF0, 0x90, 0xF0, 0x90, 0x90] ++
  [0xE0, 0x90, 0xE0, 0x90, 0xE0] ++
  [0xF0, 0x80, 0x80, 0x80, 0xF0] ++
  [0xE0, 0x90, 0x90, 0x90, 0xE0] ++
  [0xF0, 0x80, 0xF0, 0x80, 0xF0] ++
  [0xF0, 0x80, 0xF0, 0x80, 0x80]

/-- The default `FONT` (R68). -/
def Config.defaultFont : Vector Byte 80 := ⟨(Config.fontLow ++ Config.fontHigh).toArray, rfl⟩

/-- The spec's defaults of the two parameters (R10). -/
def Params.default : Params := { bulkInclusive := true, font := Config.defaultFont }

/-- The byte that the `k`-th execution of `RND` draws (10_state.md R41, `draw8()`): a FREE VALUE without a body, so
that nothing can be proved of it and a claim holds for every generator (92_eei_decisions.md D26; log 2). -/
opaque Config.draw8 : Nat → Byte

end Sys2Proof
end

