-- ==== Sys2Proof/Machine/State.lean ====
section
/-! DEFINITION. The machine's state as plain data (10_state.md R44), the events of its interface, and the reasons a step
can end without a next state. -/

namespace Sys2Proof.Machine

/-- The five fatal conditions (60_exceptions.md R261). -/
inductive Cause where
  /-- Code 1: the fetch phase of every step, `pc > 4094`. -/
  | fetchOutOfBounds
  /-- Code 2: the decode phase of every step, no descriptor matches. -/
  | unimplementedInstruction
  /-- Code 3: `CALL` with 16 valid entries. -/
  | stackOverflow
  /-- Code 4: `RET` with no valid entry. -/
  | stackUnderflow
  /-- Code 5: a data access above address 4095. -/
  | dataOutOfBounds
  deriving DecidableEq, Repr

/-- The fault record (60_exceptions.md R269). `instr` is the decoded identity with its operands. -/
structure FaultRecord where
  cause : Cause
  /-- The address of the faulting instruction. -/
  pc0 : Word
  /-- The raw word; absent for `fetchOutOfBounds`. -/
  word : Option Word
  /-- Identity and operands; absent for `fetchOutOfBounds` and `unimplementedInstruction`. -/
  instr : Option Instr
  /-- The offending address; present for `fetchOutOfBounds` and `dataOutOfBounds`. -/
  addr : Option Nat
  deriving DecidableEq, Repr

/-- The core mode (10_state.md R42). -/
inductive Mode where
  | running
  /-- Waiting for the next key-down event, whose code goes to `V[x]` (43_timer_key.md R193). -/
  | waitingForKey (x : Reg)
  /-- Stopped by a fatal condition until the next load (60_exceptions.md R268). -/
  | halted (info : FaultRecord)
  deriving DecidableEq, Repr

/-- The trace record (10_state.md R40): the word, and the identity with its operands, or none where no descriptor
matched. -/
structure TraceRecord where
  word : Word
  instr : Option Instr
  deriving DecidableEq, Repr

/-- The input events of the block (40_step_cycle.md R121). -/
inductive Event where
  /-- The driver's request to run one instruction. -/
  | step
  | tick60Hz
  | reportKeyDown (code : Nat)
  | reportKeyUp (code : Nat)
  | load (bytes : List Byte)
  deriving DecidableEq, Repr

/-- The complete state. The last three fields are the model's own (INVENTORY.md, State). -/
structure State where
  /-- The general registers `V[0]` to `V[15]` (R20). -/
  v : Vector Byte 16
  /-- The index register `I` (R29). -/
  i : Word
  /-- The program counter (R25). -/
  pc : Word
  /-- The valid slots of the call stack, `STACK[0]` first (R31, R34; log 8). -/
  stack : List Word
  /-- The delay timer `DT` (R36). -/
  dt : Byte
  /-- The sound timer `ST` (R36). -/
  st : Byte
  /-- The bytes of memory that differ from what load leaves there, by rising address (R37; log 9). -/
  mem : List Host.Cell
  /-- The display surface: row `y` is one bit grid of 64 columns, column `x` its bit `x` (R38; log 13). -/
  fb : Vector (BitVec 64) 32
  /-- The held keys, bit `k` for key `k` (R39). -/
  keys : BitVec 16
  /-- The core mode (R42). -/
  mode : Mode
  /-- The trace record (R40). -/
  trace : Option TraceRecord
  /-- The two OPEN parameters, which no step changes (00_scope.md R10; log 3). -/
  params : Params
  /-- How many bytes `RND` has drawn (10_state.md R41; log 2). -/
  draws : Nat
  /-- The events not yet served, in their total order (40_step_cycle.md R122; log 1). -/
  pending : List Event
  deriving DecidableEq, Repr

/-- No step of this machine stops with a fault: a fatal condition is a next state whose mode is `halted`
(60_exceptions.md R268; log 4). -/
inductive Fault where
  deriving DecidableEq, Repr

/-- Why a step has no next state. -/
inductive Refusal where
  /-- Raised by `exec` alone, for an instruction without a meaning; safe. No arm of `exec` answers it now. -/
  | notModelled (mnemonic : String)
  /-- Raised by the event `load` with more than 3584 bytes, which the spec gives no meaning (70_reset_and_hazards.md
  R303); safe. -/
  | programTooLong (len : Nat)
  /-- Raised by a key event with a code above 15, which the spec gives no meaning (60_exceptions.md R280); safe. -/
  | keyCodeOutOfRange (code : Nat)
  deriving DecidableEq, Repr

/-- A step's answer on this machine. -/
abbrev Result := Host.Outcome State Fault Refusal

/-- The state after the load of the empty program (70_reset_and_hazards.md R301, R302; log 11): memory lists nothing,
so that it reads as load leaves it. -/
def State.reset : State where
  v := Vector.replicate 16 0
  i := 0
  pc := 512
  stack := []
  dt := 0
  st := 0
  mem := []
  fb := Vector.replicate 32 0
  keys := 0
  mode := .running
  trace := none
  params := Params.default
  draws := 0
  pending := []

end Sys2Proof.Machine
end

