-- ==== Sys2Proof/Machine/Ops.lean ====
section
/-! DEFINITION. The named operations over registers, memory, the call stack and the mode; taking a fatal condition and
the load that alone recovers from it. -/

namespace Sys2Proof.Machine

/-! Registers (10_state.md R20 to R23). -/

/-- `V[x]`. -/
def State.getV (s : State) (x : Reg) : Byte := s.v[x.toNat]'x.isLt

/-- `V[x] <- b`. No register is hard-wired (R20). -/
def State.setV (s : State) (x : Reg) (b : Byte) : State := { s with v := s.v.set x.toNat b x.isLt }

/-- `I <- a`. -/
def State.setI (s : State) (a : Word) : State := { s with i := a }

/-- `pc <- a`. -/
def State.setPc (s : State) (a : Word) : State := { s with pc := a }

/-- The advance of `pc` by 2 that the fetch makes before the instruction executes (R26). -/
def State.advance (s : State) : State := s.setPc (s.pc + 2)

/-! Memory (20_memory.md). The list holds only what differs from the contents load leaves, by rising address (log 9). -/

/-- The number of bytes of memory (00_scope.md R9). -/
def memSize : Nat := 4096

/-- Where the program is loaded and starts (R9, R28). -/
def progBase : Nat := 512

/-- What an unlisted address reads as: the contents load leaves where no program byte lies (R67). -/
def resetByte (font : Vector Byte 80) (a : Nat) : Byte := if h : a < 80 then font[a] else 0

/-- The listed byte of an address. -/
def Memory.lookup : List Host.Cell → Nat → Option Byte
  | [], _ => none
  | c :: m, a => if c.1 = a then some c.2 else Memory.lookup m a

/-- List a byte in address order, in place of the one listed for that address. -/
def Memory.insert : List Host.Cell → Nat → Byte → List Host.Cell
  | [], a, b => [(a, b)]
  | c :: m, a, b =>
    if a < c.1 then (a, b) :: c :: m else if a = c.1 then (a, b) :: m else c :: Memory.insert m a b

/-- The byte at an address. -/
def Memory.read (font : Vector Byte 80) (m : List Host.Cell) (a : Nat) : Byte :=
  (Memory.lookup m a).getD (resetByte font a)

/-- Store a byte and keep the canonical form: the byte an unlisted address reads as is not listed. -/
def Memory.write (font : Vector Byte 80) (m : List Host.Cell) (a : Nat) (b : Byte) : List Host.Cell :=
  if b = resetByte font a then m.filter (fun c => c.1 ≠ a) else Memory.insert m a b

/-- Store bytes at rising addresses, in that order. -/
def Memory.writeBytes (font : Vector Byte 80) : List Host.Cell → Nat → List Byte → List Host.Cell
  | m, _, [] => m
  | m, a, b :: bs => Memory.writeBytes font (Memory.write font m a b) (a + 1) bs

/-- The canonical form: addresses strictly rising and inside memory, no entry equal to what an unlisted address reads
as. -/
abbrev Memory.wf (font : Vector Byte 80) (m : List Host.Cell) : Prop :=
  m.Pairwise (fun c d => c.1 < d.1) ∧ ∀ c ∈ m, c.1 < memSize ∧ c.2 ≠ resetByte font c.1

/-- Whether `cnt` bytes from address `a`, an unbounded natural, all lie in memory; none does where `cnt = 0`
(R65, R66). -/
def inMemory (a cnt : Nat) : Bool := cnt == 0 || a + cnt ≤ memSize

/-- `MEM[a]`. -/
def State.peek (s : State) (a : Nat) : Byte := Memory.read s.params.font s.mem a

/-- The data read of `cnt` bytes from `a`, whose whole range is checked first (R63, R65). -/
def State.readBytes (s : State) (a cnt : Nat) : Option (List Byte) :=
  if inMemory a cnt then some ((List.range cnt).map fun k => s.peek (a + k)) else none

/-- The data write of bytes from `a`, whose whole range is checked first (R64, R65). Every address is writable (R70). -/
def State.writeBytes (s : State) (a : Nat) (bs : List Byte) : Option State :=
  if inMemory a bs.length then some { s with mem := Memory.writeBytes s.params.font s.mem a bs } else none

/-- `Fetch16(pc)`: the big-endian word at `pc`, odd or even, or nothing when a byte of it lies outside memory
(R62, R73). -/
def State.fetch16 (s : State) : Option Word :=
  if inMemory s.pc.toNat 2 then some (wordOfBytes (s.peek s.pc.toNat) (s.peek (s.pc.toNat + 1))) else none

/-! The call stack (10_state.md R31 to R34). -/

/-- The depth of the call stack (00_scope.md R9). -/
def stackDepth : Nat := 16

/-- `sp`, the number of valid entries (R32). -/
def State.sp (s : State) : Nat := s.stack.length

/-- Push a return address unless 16 entries are valid (R33). -/
def State.push (s : State) (a : Word) : Option State :=
  if stackDepth ≤ s.sp then none else some { s with stack := s.stack ++ [a] }

/-- Pop the top entry, if there is one (R33). -/
def State.pop (s : State) : Option (Word × State) :=
  match s.stack.getLast? with
  | none => none
  | some a => some (a, { s with stack := s.stack.dropLast })

/-! The random source. -/

/-- `draw8()`: a free byte, fresh at each execution (10_state.md R41; log 2). -/
def State.draw8 (s : State) : Byte × State := (Config.draw8 s.draws, { s with draws := s.draws + 1 })

/-! Fatal conditions (60_exceptions.md R268, R269). -/

/-- `raise`: the state before the step, with nothing changed but the mode (R268). Every meaning gives it the state the
step began in, so that no write of the step is committed. -/
def State.raise (s : State) (info : FaultRecord) : State := { s with mode := .halted info }

/-- `raise FetchOutOfBounds` (R262): no word, so no identity; the address is `pc0`. -/
def State.raiseFetch (s : State) : State :=
  s.raise { cause := .fetchOutOfBounds, pc0 := s.pc, word := none, instr := none, addr := some s.pc.toNat }

/-- `raise UnimplementedInstruction` (R263): the word, and no identity. -/
def State.raiseDecode (s : State) (w : Word) : State :=
  s.raise { cause := .unimplementedInstruction, pc0 := s.pc, word := some w, instr := none, addr := none }

/-- A fatal condition of the execute phase: word, identity and operands (R264, R265). The instructions that raise have
one word each, so the fetched word is the encoded one (log 6). -/
def State.raiseExec (s : State) (cause : Cause) (ins : Instr) (addr : Option Nat) : State :=
  s.raise { cause := cause, pc0 := s.pc, word := some (encode ins), instr := some ins, addr := addr }

/-- `raise DataOutOfBounds(max(I, 4096))`: the address is the lowest offending one of a range from `I` (R65, R266). -/
def State.raiseData (s : State) (ins : Instr) : State :=
  s.raiseExec .dataOutOfBounds ins (some (max s.i.toNat memSize))

/-! Program load, the one reset and the only recovery from a fatal condition (70_reset_and_hazards.md R300 to R303). -/

/-- The longest program (20_memory.md R69). -/
def maxProgram : Nat := memSize - progBase

/-- `load(bytes)` (R301): the result depends on nothing of the previous state but the model's own fields, which are no
state of the machine (log 2, log 3, log 10). -/
def State.load (s : State) (bytes : List Byte) : State :=
  { State.reset with
    mem := Memory.writeBytes s.params.font [] progBase bytes
    params := s.params
    draws := s.draws
    pending := s.pending }

/-- A word placed where the next step fetches it: no event is left to serve first, the core runs, and a `pc` that
cannot be fetched from is put at the entry point (log 11). -/
def State.placeWord (s : State) (w : Word) : State :=
  let a := if inMemory s.pc.toNat 2 then s.pc else 512
  { s with
    pc := a
    mem := Memory.writeBytes s.params.font s.mem a.toNat [highByte w, lowByte w]
    mode := .running
    pending := [] }

end Sys2Proof.Machine
end

