-- ==== Sys2Proof/Machine/Flags.lean ====
section
/-! DEFINITION. Every flag computation, and the order in which a flag and a result are written (42_register_arithmetic.md
R159; 70_reset_and_hazards.md R310). -/

namespace Sys2Proof.Machine

/-- A flag as the register holds it, 0 or 1 (R166). -/
def flagByte (c : Bool) : Byte := if c then 1 else 0

/-- Carry out: the unsigned sum exceeds 255 (R166). -/
def carryOut (a b : Byte) : Bool := 255 < a.toNat + b.toNat

/-- No borrow, strictly: equal operands give 0 (R167; 92_eei_decisions.md D37). -/
def noBorrow (a b : Byte) : Bool := b.toNat < a.toNat

/-- The bit a right shift drops (R168). -/
def droppedRight (a : Byte) : Bool := a.getLsbD 0

/-- The bit a left shift drops (R170). -/
def droppedLeft (a : Byte) : Bool := a.getLsbD 7

/-- The sum reduced modulo 256 (R166). -/
def sumByte (a b : Byte) : Byte := BitVec.ofNat 8 (a.toNat + b.toNat)

/-- The difference reduced modulo 256 (R167). -/
def diffByte (a b : Byte) : Byte := BitVec.ofInt 8 ((a.toNat : Int) - (b.toNat : Int))

/-- Half of the value (R168). -/
def halfByte (a : Byte) : Byte := BitVec.ofNat 8 (a.toNat / 2)

/-- Twice the value, modulo 256 (R170). -/
def twiceByte (a : Byte) : Byte := BitVec.ofNat 8 (2 * a.toNat)

/-- First `VF`, then the result: with `x = 15` the result is what remains (R310). -/
def State.setFlagThen (s : State) (flag : Bool) (x : Reg) (r : Byte) : State :=
  (s.setV Reg.flag (flagByte flag)).setV x r

end Sys2Proof.Machine
end

