-- ==== Sys2Proof/Machine/Arithmetic.lean ====
section
/-! DEFINITION. The register load and arithmetic instructions (42_register_arithmetic.md). -/

namespace Sys2Proof.Machine

/-- `LD Vx, kk` (R160). -/
def execLdByte (x : Reg) (kk : Byte) (s : State) : Result := .next (s.advance.setV x kk)

/-- `ADD Vx, kk` (R161): no carry. -/
def execAddByte (x : Reg) (kk : Byte) (s : State) : Result := .next (s.advance.setV x (sumByte (s.getV x) kk))

/-- `LD Vx, Vy` (R162). -/
def execLdReg (x y : Reg) (s : State) : Result := .next (s.advance.setV x (s.getV y))

/-- `OR Vx, Vy` (R163). -/
def execOr (x y : Reg) (s : State) : Result := .next (s.advance.setV x (s.getV x ||| s.getV y))

/-- `AND Vx, Vy` (R164). -/
def execAnd (x y : Reg) (s : State) : Result := .next (s.advance.setV x (s.getV x &&& s.getV y))

/-- `XOR Vx, Vy` (R165). -/
def execXor (x y : Reg) (s : State) : Result := .next (s.advance.setV x (s.getV x ^^^ s.getV y))

/-- `ADD Vx, Vy` (R166). -/
def execAddReg (x y : Reg) (s : State) : Result :=
  .next (s.advance.setFlagThen (carryOut (s.getV x) (s.getV y)) x (sumByte (s.getV x) (s.getV y)))

/-- `SUB Vx, Vy` (R167). -/
def execSub (x y : Reg) (s : State) : Result :=
  .next (s.advance.setFlagThen (noBorrow (s.getV x) (s.getV y)) x (diffByte (s.getV x) (s.getV y)))

/-- `SHR Vx` (R168). -/
def execShr (x : Reg) (s : State) : Result :=
  .next (s.advance.setFlagThen (droppedRight (s.getV x)) x (halfByte (s.getV x)))

/-- `SUBN Vx, Vy` (R169). -/
def execSubn (x y : Reg) (s : State) : Result :=
  .next (s.advance.setFlagThen (noBorrow (s.getV y) (s.getV x)) x (diffByte (s.getV y) (s.getV x)))

/-- `SHL Vx` (R170). -/
def execShl (x : Reg) (s : State) : Result :=
  .next (s.advance.setFlagThen (droppedLeft (s.getV x)) x (twiceByte (s.getV x)))

/-- `ADD I, Vx` (R171): modulo 65536, no flag. -/
def execAddI (x : Reg) (s : State) : Result :=
  .next (s.advance.setI (BitVec.ofNat 16 (s.i.toNat + (s.getV x).toNat)))

/-- `LD I, nnn` (R172). -/
def execLdI (nnn : Addr12) (s : State) : Result := .next (s.advance.setI nnn.toWord)

/-- `JP V0, nnn` (R173): the sum is not reduced, and fits 16 bits. -/
def execJpV0 (nnn : Addr12) (s : State) : Result :=
  .next (s.setPc (BitVec.ofNat 16 (nnn.toNat + (s.getV 0).toNat)))

/-- `RND Vx, kk` (R174). -/
def execRnd (x : Reg) (kk : Byte) (s : State) : Result :=
  .next (s.draw8.2.advance.setV x (s.draw8.1 &&& kk))

end Sys2Proof.Machine
end

