-- ==== Sys2Proof/Machine/Surface.lean ====
section
/-! DEFINITION. The display surface and its operations `plotPixel` and `clear`, and the sprite drawn with them
(45_display.md R230 to R232). -/

namespace Sys2Proof.Machine

/-- The 64×32 bit grid (10_state.md R38). -/
abbrev Surface := Vector (BitVec 64) 32

/-- `FB[y][x]` for `y < 32`, `x < 64`; coordinates are wrapped first, as `plotPixel` wraps them (R230). -/
def pixelAt (fb : Surface) (px py : Nat) : Bool :=
  (fb[py % 32]'(Nat.mod_lt _ (by decide))).getLsbD (px % 64)

/-- Exclusive-OR a set bit onto one pixel. -/
def flipPixel (fb : Surface) (px py : Nat) : Surface :=
  fb.set (py % 32) ((fb[py % 32]'(Nat.mod_lt _ (by decide))) ^^^ BitVec.twoPow 64 (px % 64)) (Nat.mod_lt _ (by decide))

/-- `plotPixel(px, py, bit)`: whether the pixel went from 1 to 0, and the surface after it (R230). -/
def plotPixel (fb : Surface) (px py : Nat) (bit : Bool) : Bool × Surface :=
  (pixelAt fb px py && bit, if bit then flipPixel fb px py else fb)

/-- `clear()` (R232). -/
def clearSurface : Surface := Vector.replicate 32 0

/-- Plot the pixels of one sprite row from column `c` on, at most `fuel` of them: pixel `c` is bit `7 - c` (R231).
The Bool says whether a pixel collided so far. -/
def plotRow (x0 py : Nat) (row : Byte) : Nat → Nat → Bool × Surface → Bool × Surface
  | 0, _, acc => acc
  | fuel + 1, c, acc =>
    let p := plotPixel acc.2 (x0 + c) py (row.getLsbD (7 - c))
    plotRow x0 py row fuel (c + 1) (acc.1 || p.1, p.2)

/-- Plot the rows of a sprite from the top: row `r` is plotted at `y0 + r` (R231). -/
def plotRows (x0 : Nat) : Nat → List Byte → Bool × Surface → Bool × Surface
  | _, [], acc => acc
  | py, row :: rows, acc => plotRows x0 (py + 1) rows (plotRow x0 py row 8 0 acc)

/-- Draw a sprite: whether any plotted pixel collided, and the surface after it (R233). -/
def plotSprite (fb : Surface) (x0 y0 : Nat) (rows : List Byte) : Bool × Surface := plotRows x0 y0 rows (false, fb)

end Sys2Proof.Machine
end

