-- ==== Sys2Proof/Machine/Display.lean ====
section
/-! DEFINITION. The display instructions (45_display.md). -/

namespace Sys2Proof.Machine

/-- `DRW Vx, Vy, n` (R233): the coordinates are read before `VF` is written. -/
def execDrw (x y : Reg) (n : Nibble) (s : State) : Result :=
  match s.readBytes s.i.toNat n.toNat with
  | none => .next (s.raiseData (.drw x y n))
  | some rows =>
    let p := plotSprite s.fb (s.getV x).toNat (s.getV y).toNat rows
    .next ({ s.advance with fb := p.2 }.setV Reg.flag (flagByte p.1))

/-- `CLS` (R234). -/
def execCls (s : State) : Result := .next { s.advance with fb := clearSurface }

end Sys2Proof.Machine
end

