-- ==== Sys2Proof/Machine/Operands.lean ====
section
/-! DEFINITION. The operand forms: skips, the register ranges of the bulk instructions, key codes, glyph addresses and
decimal digits. -/

namespace Sys2Proof.Machine

/-- The additional advance of a skip when its condition holds (10_state.md R26). -/
def State.skipIf (s : State) (c : Bool) : State := if c then s.setPc (s.pc + 2) else s

/-- `isHeld(code)`: the whole byte is the code, and one above 15 names no key (43_timer_key.md R194). -/
def State.isHeld (s : State) (code : Byte) : Bool := code.toNat ≤ 15 && s.keys.getLsbD code.toNat

/-- The number of registers a bulk instruction moves (44_memory_bcd_font.md R213). -/
def State.bulkCount (s : State) (x : Reg) : Nat := if s.params.bulkInclusive then x.toNat + 1 else x.toNat

/-- `V[0]` to `V[cnt-1]` in ascending order. -/
def State.regBytes (s : State) (cnt : Nat) : List Byte := (List.range cnt).map fun k => s.getV (BitVec.ofNat 4 k)

/-- Write bytes to `V[k]`, `V[k+1]`, … in ascending order. -/
def State.setRegs : State → Nat → List Byte → State
  | s, _, [] => s
  | s, k, b :: bs => State.setRegs (s.setV (BitVec.ofNat 4 k) b) (k + 1) bs

/-- The address of the glyph of a byte's low nibble (R211). -/
def glyphAddr (b : Byte) : Word := BitVec.ofNat 16 (5 * (b.toNat % 16))

/-- The decimal digits of a byte: hundreds, tens, ones (R212). -/
def decimalDigits (b : Byte) : List Byte :=
  [BitVec.ofNat 8 (b.toNat / 100), BitVec.ofNat 8 (b.toNat / 10 % 10), BitVec.ofNat 8 (b.toNat % 10)]

end Sys2Proof.Machine
end

