-- ==== Sys2Proof/Machine/FlowControl.lean ====
section
/-! DEFINITION. The flow-control instructions (41_flow_control.md). A meaning is given the state before the fetch
advanced `pc`, so that a fatal condition discards the advance too (log 7). -/

namespace Sys2Proof.Machine

/-- `RET` (R140). -/
def execRet (s : State) : Result :=
  match s.pop with
  | none => .next (s.raiseExec .stackUnderflow .ret none)
  | some (a, t) => .next (t.setPc a)

/-- `JP nnn` (R141). -/
def execJp (nnn : Addr12) (s : State) : Result := .next (s.setPc nnn.toWord)

/-- `CALL nnn` (R142): the pushed address is that of the instruction after it. -/
def execCall (nnn : Addr12) (s : State) : Result :=
  match s.push (s.pc + 2) with
  | none => .next (s.raiseExec .stackOverflow (.call nnn) none)
  | some t => .next (t.setPc nnn.toWord)

/-- `SE Vx, kk` (R143). -/
def execSeByte (x : Reg) (kk : Byte) (s : State) : Result := .next (s.advance.skipIf (s.getV x == kk))

/-- `SNE Vx, kk` (R144). -/
def execSneByte (x : Reg) (kk : Byte) (s : State) : Result := .next (s.advance.skipIf (s.getV x != kk))

/-- `SE Vx, Vy` (R145). -/
def execSeReg (x y : Reg) (s : State) : Result := .next (s.advance.skipIf (s.getV x == s.getV y))

/-- `SNE Vx, Vy` (R146). -/
def execSneReg (x y : Reg) (s : State) : Result := .next (s.advance.skipIf (s.getV x != s.getV y))

end Sys2Proof.Machine
end

