-- ==== Sys2Proof/Machine/MemoryFont.lean ====
section
/-! DEFINITION. The memory, BCD and font instructions (44_memory_bcd_font.md). -/

namespace Sys2Proof.Machine

/-- `LD F, Vx` (R211). -/
def execLdFont (x : Reg) (s : State) : Result := .next (s.advance.setI (glyphAddr (s.getV x)))

/-- `LD B, Vx` (R212). -/
def execLdBcd (x : Reg) (s : State) : Result :=
  match s.writeBytes s.i.toNat (decimalDigits (s.getV x)) with
  | none => .next (s.raiseData (.ldBcd x))
  | some t => .next t.advance

/-- `LD [I], Vx` (R213). -/
def execStoreRegs (x : Reg) (s : State) : Result :=
  match s.writeBytes s.i.toNat (s.regBytes (s.bulkCount x)) with
  | none => .next (s.raiseData (.storeRegs x))
  | some t => .next t.advance

/-- `LD Vx, [I]` (R214). -/
def execLoadRegs (x : Reg) (s : State) : Result :=
  match s.readBytes s.i.toNat (s.bulkCount x) with
  | none => .next (s.raiseData (.loadRegs x))
  | some bs => .next (s.advance.setRegs 0 bs)

end Sys2Proof.Machine
end

