-- ==== Sys2Proof/Machine/NoOp.lean ====
section
/-! DEFINITION. The no-op instruction (46_noop.md). -/

namespace Sys2Proof.Machine

/-- `SYS nnn` (R250): nothing but the `pc` advance of the fetch. -/
def execSys (_nnn : Addr12) (s : State) : Result := .next s.advance

end Sys2Proof.Machine
end

