-- ==== Sys2Proof/Machine/TimerKey.lean ====
section
/-! DEFINITION. The timer and key instructions (43_timer_key.md). -/

namespace Sys2Proof.Machine

/-- `LD Vx, DT` (R190). -/
def execReadDT (x : Reg) (s : State) : Result := .next (s.advance.setV x s.dt)

/-- `LD DT, Vx` (R191). -/
def execSetDT (x : Reg) (s : State) : Result := .next { s.advance with dt := s.getV x }

/-- `LD ST, Vx` (R192). -/
def execSetST (x : Reg) (s : State) : Result := .next { s.advance with st := s.getV x }

/-- `LD Vx, K` (R193): enter the wait; the key-down event completes it. -/
def execWaitKey (x : Reg) (s : State) : Result := .next { s.advance with mode := .waitingForKey x }

/-- `SKP Vx` (R194). -/
def execSkp (x : Reg) (s : State) : Result := .next (s.advance.skipIf (s.isHeld (s.getV x)))

/-- `SKNP Vx` (R195). -/
def execSknp (x : Reg) (s : State) : Result := .next (s.advance.skipIf (!s.isHeld (s.getV x)))

end Sys2Proof.Machine
end

