-- ==== Sys2Proof/Machine/Cycle.lean ====
section
/-! DEFINITION. The step cycle and the other events of the interface (40_step_cycle.md; 60_exceptions.md R276 to R281). -/

namespace Sys2Proof.Machine

/-- Phase 5 (R129): every step that reaches the decode phase overwrites the trace record, a step that raises in it or
after it too (10_state.md R40; log 5). -/
def State.recordTrace (s : State) (w : Word) (ins : Option Instr) : State :=
  { s with trace := some { word := w, instr := ins } }

/-- Phases 4 and 5: execute, record and commit (R128, R129). -/
def executeAndRecord (w : Word) (ins : Instr) (s : State) : Result :=
  match exec ins s with
  | .next t => .next (t.recordTrace w (some ins))
  | .fault f => .fault f
  | .refused r => .refused r

/-- The event `step` (R124): fetch, decode, execute in the mode Running; nothing in the other two (R130, R131). -/
def serveStep (s : State) : Result :=
  match s.mode with
  | .waitingForKey _ => .next s
  | .halted _ => .next s
  | .running =>
    match s.fetch16 with
    | none => .next s.raiseFetch
    | some w =>
      match decodeWord w with
      | none => .next ((s.raiseDecode w).recordTrace w none)
      | some ins => executeAndRecord w ins s

/-- One tick of a timer: toward 0 and never past it (R276). -/
def countDown (b : Byte) : Byte := if b = 0 then 0 else b - 1

/-- The event `tick60Hz`, the same in every mode (R276, R277, R281). -/
def serveTick (s : State) : Result := .next { s with dt := countDown s.dt, st := countDown s.st }

/-- The number of keys (00_scope.md R9). -/
def numKeys : Nat := 16

/-- The end of a key wait: the code goes to the waiting register (R278). -/
def State.completeWait (s : State) (code : Nat) : State :=
  match s.mode with
  | .waitingForKey x => { s.setV x (BitVec.ofNat 8 code) with mode := .running }
  | .running => s
  | .halted _ => s

/-- The event `reportKeyDown(code)` (R278); a code above 15 has no meaning (R280). -/
def serveKeyDown (code : Nat) (s : State) : Result :=
  if code < numKeys then .next ({ s with keys := s.keys ||| BitVec.twoPow 16 code }.completeWait code)
  else .refused (.keyCodeOutOfRange code)

/-- The event `reportKeyUp(code)` (R279); a code above 15 has no meaning (R280). -/
def serveKeyUp (code : Nat) (s : State) : Result :=
  if code < numKeys then .next { s with keys := s.keys &&& ~~~BitVec.twoPow 16 code }
  else .refused (.keyCodeOutOfRange code)

/-- The event `load(bytes)` (70_reset_and_hazards.md R301); more than 3584 bytes have no meaning (R303). -/
def serveLoad (bytes : List Byte) (s : State) : Result :=
  if bytes.length ≤ maxProgram then .next (s.load bytes) else .refused (.programTooLong bytes.length)

/-- Serve one event, an atomic transition (R122). -/
def serve (e : Event) (s : State) : Result :=
  match e with
  | .step => serveStep s
  | .tick60Hz => serveTick s
  | .reportKeyDown code => serveKeyDown code s
  | .reportKeyUp code => serveKeyUp code s
  | .load bytes => serveLoad bytes s

/-- Serve the next event of the total order; where none is given, the driver's `step` (R121, R122; log 1). -/
def serveNext (s : State) : Result :=
  match s.pending with
  | [] => serve .step s
  | e :: rest => serve e { s with pending := rest }

end Sys2Proof.Machine
end

