-- ==== Sys2Proof/Machine/Step.lean ====
section
/-! DEFINITION. The machine's step, and an instruction placed where it fetches. -/

namespace Sys2Proof.Machine

/-- One step of the machine serves one event (Cycle.lean). -/
def step (s : State) : Host.Outcome State Fault Refusal := serveNext s

/-- The state with an instruction of the opcode table placed where the very next step fetches it (log 11). -/
def State.withFetchWord (s : State) (nbits w : Nat) : State := s.placeWord (tableWord nbits w)

end Sys2Proof.Machine
end

