-- ==== Sys2Proof/Machine/Outputs.lean ====
section
/-! DEFINITION. The four outputs of the block, each a function of the state with no effect on it (40_step_cycle.md R121;
60_exceptions.md R283 to R286). -/

namespace Sys2Proof.Machine

/-- Display output: the pixel of row `y`, column `x` (R283). -/
def State.displayPixel (s : State) (x y : Nat) : Bool := pixelAt s.fb x y

/-- Sound output: `ST ≠ 0` (R285). -/
def State.soundActive (s : State) : Bool := s.st != 0

/-- Halt report output: the fault record, present exactly in the mode Halted (R284). -/
def State.haltReport (s : State) : Option FaultRecord :=
  match s.mode with
  | .halted info => some info
  | .running => none
  | .waitingForKey _ => none

/-- An identity and its operands as the outputs show them: the row of R97, and the fields in the order of R93. -/
def Instr.shown (i : Instr) : Nat × List Nat := (i.row, i.operands)

/-- Trace output: the word, and the identity with its operands where a descriptor matched (R286). -/
def State.traceOutput (s : State) : Option (Word × Option (Nat × List Nat)) :=
  s.trace.map fun t => (t.word, t.instr.map Instr.shown)

/-- The cause codes (R261). -/
def Cause.code : Cause → Nat
  | .fetchOutOfBounds => 1
  | .unimplementedInstruction => 2
  | .stackOverflow => 3
  | .stackUnderflow => 4
  | .dataOutOfBounds => 5

end Sys2Proof.Machine
end

