-- ==== Sys2Proof/Safety.lean ====
section
/-! DEFINITION. What counts as a safe run, in the terms claims use: the invariant that every step keeps, and what an
instruction may write. -/

namespace Sys2Proof

/-- The instruction's own destination register, if it names one (each instruction's rule). -/
def Instr.dest : Instr → Option Reg
  | .ldByte x _ => some x
  | .addByte x _ => some x
  | .ldReg x _ => some x
  | .or x _ => some x
  | .and x _ => some x
  | .xor x _ => some x
  | .addReg x _ => some x
  | .sub x _ => some x
  | .shr x => some x
  | .subn x _ => some x
  | .shl x => some x
  | .rnd x _ => some x
  | .readDT x => some x
  | .cls => none
  | .ret => none
  | .sys _ => none
  | .jp _ => none
  | .call _ => none
  | .seByte _ _ => none
  | .sneByte _ _ => none
  | .seReg _ _ => none
  | .sneReg _ _ => none
  | .ldI _ => none
  | .jpV0 _ => none
  | .drw _ _ _ => none
  | .skp _ => none
  | .sknp _ => none
  | .waitKey _ => none
  | .setDT _ => none
  | .setST _ => none
  | .addI _ => none
  | .ldFont _ => none
  | .ldBcd _ => none
  | .storeRegs _ => none
  | .loadRegs _ => none

/-- The six instructions that write `VF` as a side effect (10_state.md R22). -/
def Instr.setsFlag : Instr → Bool
  | .addReg _ _ => true
  | .sub _ _ => true
  | .shr _ => true
  | .subn _ _ => true
  | .shl _ => true
  | .drw _ _ _ => true
  | .cls => false
  | .ret => false
  | .sys _ => false
  | .jp _ => false
  | .call _ => false
  | .seByte _ _ => false
  | .sneByte _ _ => false
  | .seReg _ _ => false
  | .ldByte _ _ => false
  | .addByte _ _ => false
  | .ldReg _ _ => false
  | .or _ _ => false
  | .and _ _ => false
  | .xor _ _ => false
  | .sneReg _ _ => false
  | .ldI _ => false
  | .jpV0 _ => false
  | .rnd _ _ => false
  | .skp _ => false
  | .sknp _ => false
  | .readDT _ => false
  | .waitKey _ => false
  | .setDT _ => false
  | .setST _ => false
  | .addI _ => false
  | .ldFont _ => false
  | .ldBcd _ => false
  | .storeRegs _ => false
  | .loadRegs _ => false

end Sys2Proof

namespace Sys2Proof.Machine

/-- Stopped by a fatal condition (60_exceptions.md R268). -/
def State.isHalted (s : State) : Prop := ∃ info, s.mode = .halted info

/-- `pc` stays within the largest target of `JP V0, nnn` (10_state.md R25). -/
def State.PcBounded (s : State) : Prop := s.pc.toNat ≤ 0x10FE

/-- At most 16 entries, each the address after some `CALL` (10_state.md R32; 41_flow_control.md R140, R142). -/
def State.StackBounded (s : State) : Prop := s.sp ≤ 16 ∧ ∀ a ∈ s.stack, 2 ≤ a.toNat ∧ a.toNat ≤ 4096

/-- Memory keeps its one canonical form (log 9). -/
def State.MemCanonical (s : State) : Prop := Memory.wf s.params.font s.mem

/-- What the fault record holds for each cause (60_exceptions.md R261, R269). -/
def FaultRecord.Shape (f : FaultRecord) : Prop :=
  match f.cause with
  | .fetchOutOfBounds =>
    4094 < f.pc0.toNat ∧ f.word = none ∧ f.instr = none ∧ f.addr = some f.pc0.toNat
  | .unimplementedInstruction =>
    (∃ w, f.word = some w ∧ decodeWord w = none) ∧ f.instr = none ∧ f.addr = none
  | .stackOverflow =>
    ∃ nnn, f.word = some (encode (.call nnn)) ∧ f.instr = some (.call nnn) ∧ f.addr = none
  | .stackUnderflow => f.word = some 0x00EE ∧ f.instr = some .ret ∧ f.addr = none
  | .dataOutOfBounds =>
    ∃ ins a, f.word = some (encode ins) ∧ f.instr = some ins ∧ f.addr = some a ∧ 4095 < a ∧
      ((∃ x y n, ins = .drw x y n) ∨ ∃ x, ins = .ldBcd x ∨ ins = .storeRegs x ∨ ins = .loadRegs x)

/-- In the mode Halted, `pc` still addresses the faulting instruction and the record has its cause's shape
(60_exceptions.md R268, R269). -/
def State.HaltPrecise (s : State) : Prop := ∀ info, s.mode = .halted info → info.pc0 = s.pc ∧ info.Shape

/-- The trace names the instruction that its word decodes to, and none where it decodes to none (40_step_cycle.md
R129). -/
def State.TraceSound (s : State) : Prop := ∀ r, s.trace = some r → decodeWord r.word = r.instr

/-- The machine invariant. -/
structure State.Inv (s : State) : Prop where
  pcBounded : s.PcBounded
  stackBounded : s.StackBounded
  memCanonical : s.MemCanonical
  haltPrecise : s.HaltPrecise
  traceSound : s.TraceSound

end Sys2Proof.Machine
end

