-- ==== Sys2Proof/Certificates/Slice0/Obligations.lean ====
section
/-! DEFINITION. The statements for the provers. Each docstring names the rule of spec/ it formalises, and the spec's own
decision (D<n> of 92_eei_decisions.md) or the log entry where the statement rests on one. The sum
`pc + 2` is modulo 65536, a wrap that no run reaches (log 15). -/

open Sys2Proof Sys2Proof.Machine

/-! Encoding (30_encoding.md). -/

/-- Every well-formed instruction, with every operand at every value, is what its word decodes to (R97, R105). The bit
patterns are the spec's own decision D2, but for the four that its source shows, and the places of `y` and `n` its
decision D3. -/
def Obligations.DecodeEncodeRoundTrip : Prop :=
  ∀ i : Instr, i.WellFormed → decodeWord (encode i) = some i

/-- The other direction: what a word decodes to is well-formed and has no other word, but for the ignored `y` bits of
`SHR` and `SHL`, which decode whatever they hold (R96, R101; bit patterns by the spec's decision D2, field places by D3,
the ignored bits by D13, the strict masks by D28). -/
def Obligations.DecodedInstructionHasItsWord : Prop :=
  (∀ (w : Word) (i : Instr), decodeWord w = some i →
    i.WellFormed ∧
    ((∀ x, i ≠ .shr x ∧ i ≠ .shl x) → encode i = w) ∧
    (∀ x, i = .shr x → ∃ y, w = formatXYN 0x8 x y 0x6) ∧
    (∀ x, i = .shl x → ∃ y, w = formatXYN 0x8 x y 0xE)) ∧
  ∀ x y : Reg,
    decodeWord (formatXYN 0x8 x y 0x6) = some (.shr x) ∧ decodeWord (formatXYN 0x8 x y 0xE) = some (.shl x)

/-- The decoder by primary opcode (R98) selects, on all 65536 words, the row that the scan of the descriptor table in
its order selects, and no row where the scan finds none (R95, R96, R97; masks by D2, D28, and D13 for the ignored `y`).
-/
def Obligations.DecoderFollowsDescriptorTable : Prop :=
  ∀ w : Word, (decodeWord w).map Instr.row = scanTable w

/-- The illegal words are exactly those R99 lists (strict masks: D28). -/
def Obligations.IllegalWordsAreExactlyTheListed : Prop :=
  ∀ w : Word, decodeWord w = none ↔
    (w.toNat / 4096 = 0x5 ∧ w.toNat % 16 ≠ 0) ∨
    (w.toNat / 4096 = 0x8 ∧ w.toNat % 16 ∈ [0x8, 0x9, 0xA, 0xB, 0xC, 0xD, 0xF]) ∨
    (w.toNat / 4096 = 0x9 ∧ w.toNat % 16 ≠ 0) ∨
    (w.toNat / 4096 = 0xE ∧ w.toNat % 256 ∉ [0x9E, 0xA1]) ∨
    (w.toNat / 4096 = 0xF ∧ w.toNat % 256 ∉ [0x07, 0x0A, 0x15, 0x18, 0x1E, 0x29, 0x33, 0x55, 0x65])

/-- One word of each family, written out from R97, decodes to its instruction, and the word 0x5121, which no descriptor
matches, decodes to none (R97, R99, R101; the bit patterns are the spec's decision D2, the places of `y` and `n` its D3,
that 0x831E is `SHL V3` whatever its `y` bits its D13, and that 0x5121 is illegal, by the strict masks, its D28; log
14). -/
def Obligations.WordsOfEachFamilyDecode : Prop :=
  decodeTableWord 16 0x00E0 = some .cls ∧
  decodeTableWord 16 0x0123 = some (.sys 0x123) ∧
  decodeTableWord 16 0x2ABC = some (.call 0xABC) ∧
  decodeTableWord 16 0x4A07 = some (.sneByte 0xA 0x07) ∧
  decodeTableWord 16 0x8125 = some (.sub 0x1 0x2) ∧
  decodeTableWord 16 0x831E = some (.shl 0x3) ∧
  decodeTableWord 16 0xD125 = some (.drw 0x1 0x2 0x5) ∧
  decodeTableWord 16 0xE5A1 = some (.sknp 0x5) ∧
  decodeTableWord 16 0xF70A = some (.waitKey 0x7) ∧
  decodeTableWord 16 0xF255 = some (.storeRegs 0x2) ∧
  decodeTableWord 16 0x5121 = none

/-! Flow control (41_flow_control.md). -/

/-- `JP nnn` (R141): its encoding, its effect on every state, that a jump to its own address changes nothing, and that
a target of 4095 makes the next fetch fatal, not the jump (R62, R262, R268; the fetch bound is the spec's decision D6, and
that the halted state is the one before with the mode alone changed is its decision D10; log 4, log 14). -/
def Obligations.JumpSetsProgramCounter : Prop :=
  (∀ w : Word, w &&& 0xF000 = 0x1000 → decodeWord w = some (.jp (w.extractLsb' 0 12))) ∧
  (∀ (nnn : Addr12) (s : State), exec (.jp nnn) s = .next { s with pc := nnn.setWidth 16 }) ∧
  (∀ (nnn : Addr12) (s : State), s.pc = nnn.setWidth 16 → exec (.jp nnn) s = .next s) ∧
  (∀ s : State, s.mode = .running → s.pc = (0xFFF : Addr12).setWidth 16 →
    ∃ info, info.cause = .fetchOutOfBounds ∧ serve .step s = .next { s with mode := .halted info })

/-- `CALL nnn` below 16 entries pushes the address after it and jumps; `RET` with an entry pops it into `pc`
(pseudocode of R142, R140). Nothing else changes. -/
def Obligations.CallsPushAndReturnsPop : Prop :=
  (∀ (nnn : Addr12) (s : State), s.sp < 16 →
    exec (.call nnn) s = .next { s with stack := s.stack ++ [s.pc + 2], pc := nnn.setWidth 16 }) ∧
  (∀ (s : State) (st : List Word) (a : Word), s.stack = st ++ [a] →
    exec .ret s = .next { s with stack := st, pc := a })

/-- `CALL` with 16 entries and `RET` with none halt the core with codes 3 and 4, and change nothing else: nothing is
pushed or popped and `pc` stays (R140, R261, R264, R265, R268; the codes are the spec's decision D11 and the unchanged
state its decision D10; log 4, log 14). The table of all five codes is `FaultRecordNamesTheFetchedWord`. -/
def Obligations.StackFaultsHalt : Prop :=
  (∀ (nnn : Addr12) (s : State), s.sp = 16 →
    ∃ info, info.cause = .stackOverflow ∧ info.cause.code = 3 ∧
      exec (.call nnn) s = .next { s with mode := .halted info }) ∧
  (∀ s : State, s.sp = 0 →
    ∃ info, info.cause = .stackUnderflow ∧ info.cause.code = 4 ∧
      exec .ret s = .next { s with mode := .halted info })

/-- Calls executed one after another, whatever their targets. -/
def callAll : List Addr12 → State → Result
  | [], s => .next s
  | nnn :: rest, s =>
    match exec (.call nnn) s with
    | .next t => callAll rest t
    | .fault f => .fault f
    | .refused r => .refused r

/-- From an empty stack, up to 16 calls succeed and a 17th halts the core with a stack overflow (R33; 95_test_vectors.md
S6; that 16 succeed is C1, and that the halted stack still holds 16 the spec's decision D10). -/
def Obligations.SixteenCallsSucceedAndTheNextHalts : Prop :=
  ∀ (targets : List Addr12) (s : State), s.stack = [] → s.mode = .running →
    ∃ t, callAll targets s = .next t ∧
      (targets.length ≤ 16 → t.sp = targets.length ∧ t.mode = .running) ∧
      (16 < targets.length → t.sp = 16 ∧ ∃ info, t.mode = .halted info ∧ info.cause = .stackOverflow)

/-- The four register skips: one instruction more is passed when the comparison holds, and nothing else changes
(pseudocode of R143 to R146). -/
def Obligations.SkipsCompareRegisters : Prop :=
  ∀ (x y : Reg) (kk : Byte) (s : State),
    exec (.seByte x kk) s =
      .next { s with pc := if s.v[x.toNat]'x.isLt = kk then s.pc + 2 + 2 else s.pc + 2 } ∧
    exec (.sneByte x kk) s =
      .next { s with pc := if s.v[x.toNat]'x.isLt ≠ kk then s.pc + 2 + 2 else s.pc + 2 } ∧
    exec (.seReg x y) s =
      .next { s with pc := if s.v[x.toNat]'x.isLt = s.v[y.toNat]'y.isLt then s.pc + 2 + 2 else s.pc + 2 } ∧
    exec (.sneReg x y) s =
      .next { s with pc := if s.v[x.toNat]'x.isLt ≠ s.v[y.toNat]'y.isLt then s.pc + 2 + 2 else s.pc + 2 }

/-! Register load and arithmetic (42_register_arithmetic.md). -/

/-- `LD Vx, kk` and `ADD Vx, kk` (R160, R161, whole): encodings, results modulo 256, and no flag: the register written
is `V[x]` alone, `VF` included. -/
def Obligations.ImmediateLoadAndAdd : Prop :=
  (∀ w : Word, w &&& 0xF000 = 0x6000 → decodeWord w = some (.ldByte (w.extractLsb' 8 4) (w.extractLsb' 0 8))) ∧
  (∀ w : Word, w &&& 0xF000 = 0x7000 → decodeWord w = some (.addByte (w.extractLsb' 8 4) (w.extractLsb' 0 8))) ∧
  ∀ (x : Reg) (kk : Byte) (s : State),
    exec (.ldByte x kk) s = .next { s with v := s.v.set x.toNat kk x.isLt, pc := s.pc + 2 } ∧
    exec (.addByte x kk) s =
      .next { s with
        v := s.v.set x.toNat (BitVec.ofNat 8 (((s.v[x.toNat]'x.isLt).toNat + kk.toNat) % 256)) x.isLt
        pc := s.pc + 2 }

/-- `LD Vx, Vy`, `OR`, `AND`, `XOR`: the result in `V[x]`, no flag, nothing else (pseudocode of R162 to R165). -/
def Obligations.CopyAndBitwiseOperations : Prop :=
  ∀ (x y : Reg) (s : State),
    exec (.ldReg x y) s = .next { s with v := s.v.set x.toNat (s.v[y.toNat]'y.isLt) x.isLt, pc := s.pc + 2 } ∧
    exec (.or x y) s =
      .next { s with v := s.v.set x.toNat (s.v[x.toNat]'x.isLt ||| s.v[y.toNat]'y.isLt) x.isLt, pc := s.pc + 2 } ∧
    exec (.and x y) s =
      .next { s with v := s.v.set x.toNat (s.v[x.toNat]'x.isLt &&& s.v[y.toNat]'y.isLt) x.isLt, pc := s.pc + 2 } ∧
    exec (.xor x y) s =
      .next { s with v := s.v.set x.toNat (s.v[x.toNat]'x.isLt ^^^ s.v[y.toNat]'y.isLt) x.isLt, pc := s.pc + 2 }

/-- `ADD Vx, Vy`: `VF` the carry out, then `V[x]` the sum modulo 256, in that order, from operands read first
(pseudocode of R166; the order with `x = 15` is the spec's decision D12). -/
def Obligations.AddRegistersSetsCarry : Prop :=
  ∀ (x y : Reg) (s : State),
    exec (.addReg x y) s =
      .next { s with
        v := (s.v.set 15 (if 255 < (s.v[x.toNat]'x.isLt).toNat + (s.v[y.toNat]'y.isLt).toNat then 1 else 0)).set x.toNat
          (BitVec.ofNat 8 (((s.v[x.toNat]'x.isLt).toNat + (s.v[y.toNat]'y.isLt).toNat) % 256)) x.isLt
        pc := s.pc + 2 }

/-- `SUB` and `SUBN`: `VF` is 1 exactly when the minuend is strictly greater, then `V[x]` is the difference modulo 256
(pseudocode of R167, R169; flag 0 for equal operands by D37; the order with `x = 15` is the spec's decision D12). -/
def Obligations.SubtractionsSetNoBorrow : Prop :=
  ∀ (x y : Reg) (s : State),
    exec (.sub x y) s =
      .next { s with
        v := (s.v.set 15 (if (s.v[y.toNat]'y.isLt).toNat < (s.v[x.toNat]'x.isLt).toNat then 1 else 0)).set x.toNat
          (BitVec.ofNat 8 ((256 + (s.v[x.toNat]'x.isLt).toNat - (s.v[y.toNat]'y.isLt).toNat) % 256)) x.isLt
        pc := s.pc + 2 } ∧
    exec (.subn x y) s =
      .next { s with
        v := (s.v.set 15 (if (s.v[x.toNat]'x.isLt).toNat < (s.v[y.toNat]'y.isLt).toNat then 1 else 0)).set x.toNat
          (BitVec.ofNat 8 ((256 + (s.v[y.toNat]'y.isLt).toNat - (s.v[x.toNat]'x.isLt).toNat) % 256)) x.isLt
        pc := s.pc + 2 }

/-- `SHR` and `SHL`: `VF` the bit shifted out, 0 or 1, then `V[x]` halved or doubled modulo 256, in place (pseudocode of
R168, R170; in place by D13, flag value by D14, order by D12). -/
def Obligations.ShiftsSetDroppedBit : Prop :=
  ∀ (x : Reg) (s : State),
    exec (.shr x) s =
      .next { s with
        v := (s.v.set 15 (BitVec.ofNat 8 ((s.v[x.toNat]'x.isLt).toNat % 2))).set x.toNat
          (BitVec.ofNat 8 ((s.v[x.toNat]'x.isLt).toNat / 2)) x.isLt
        pc := s.pc + 2 } ∧
    exec (.shl x) s =
      .next { s with
        v := (s.v.set 15 (BitVec.ofNat 8 ((s.v[x.toNat]'x.isLt).toNat / 128))).set x.toNat
          (BitVec.ofNat 8 ((s.v[x.toNat]'x.isLt).toNat * 2 % 256)) x.isLt
        pc := s.pc + 2 }

/-- `LD I, nnn`, `ADD I, Vx` modulo 65536, `LD F, Vx` five times the low nibble: `I` and the pc advance, no flag
(pseudocode of R172, R171, R211; the wrap is the spec's decision D30). -/
def Obligations.IndexRegisterInstructions : Prop :=
  ∀ (nnn : Addr12) (x : Reg) (s : State),
    exec (.ldI nnn) s = .next { s with i := nnn.setWidth 16, pc := s.pc + 2 } ∧
    exec (.addI x) s =
      .next { s with i := BitVec.ofNat 16 ((s.i.toNat + (s.v[x.toNat]'x.isLt).toNat) % 65536), pc := s.pc + 2 } ∧
    exec (.ldFont x) s =
      .next { s with i := BitVec.ofNat 16 (5 * ((s.v[x.toNat]'x.isLt).toNat % 16)), pc := s.pc + 2 }

/-- `JP V0, nnn`: the target is the unreduced sum of the address and `V[0]`, and nothing else changes (pseudocode of
R173; unmasked by the spec's decision D29). -/
def Obligations.JumpWithOffsetAddsUnreduced : Prop :=
  ∀ (nnn : Addr12) (s : State),
    ∃ t, exec (.jpV0 nnn) s = .next t ∧ t = { s with pc := t.pc } ∧ t.pc.toNat = nnn.toNat + (s.v[0]).toNat

/-- `RND Vx, kk`: the drawn byte, whatever it is, masked by `kk`; the next execution draws another (R174, D26; the draw
is the free value of log 2). No bit outside `kk` is set. -/
def Obligations.RandomByteIsMasked : Prop :=
  ∀ (x : Reg) (kk : Byte) (s : State),
    ∃ t, exec (.rnd x kk) s = .next t ∧
      t = { s with
        v := s.v.set x.toNat (Config.draw8 s.draws &&& kk) x.isLt
        pc := s.pc + 2
        draws := s.draws + 1 } ∧
      t.v[x.toNat]'x.isLt &&& ~~~kk = 0

/-! Timers and keys (43_timer_key.md; 60_exceptions.md). -/

/-- `LD Vx, DT`, `LD DT, Vx`, `LD ST, Vx` (pseudocode of R190, R191, R192). -/
def Obligations.TimerInstructionsCopy : Prop :=
  ∀ (x : Reg) (s : State),
    exec (.readDT x) s = .next { s with v := s.v.set x.toNat s.dt x.isLt, pc := s.pc + 2 } ∧
    exec (.setDT x) s = .next { s with dt := s.v[x.toNat]'x.isLt, pc := s.pc + 2 } ∧
    exec (.setST x) s = .next { s with st := s.v[x.toNat]'x.isLt, pc := s.pc + 2 }

/-- `SKP` and `SKNP`: the whole byte is the key code, and exactly one of the two skips (pseudocode of R194, R195; a code
above 15 is never held by the spec's decision D17). -/
def Obligations.KeySkipsAreComplements : Prop :=
  ∀ (x : Reg) (s : State),
    (∀ k : Nat, k < 16 → (s.v[x.toNat]'x.isLt).toNat = k → s.keys.getLsbD k = true →
      exec (.skp x) s = .next { s with pc := s.pc + 2 + 2 } ∧ exec (.sknp x) s = .next { s with pc := s.pc + 2 }) ∧
    (∀ k : Nat, (s.v[x.toNat]'x.isLt).toNat = k → k < 16 → s.keys.getLsbD k = false →
      exec (.skp x) s = .next { s with pc := s.pc + 2 } ∧ exec (.sknp x) s = .next { s with pc := s.pc + 2 + 2 }) ∧
    (15 < (s.v[x.toNat]'x.isLt).toNat →
      exec (.skp x) s = .next { s with pc := s.pc + 2 } ∧ exec (.sknp x) s = .next { s with pc := s.pc + 2 + 2 })

/-- `LD Vx, K` enters the wait and writes no register; then a tick and a key-up leave it, and the next
key-down writes its code to `V[x]` and resumes (pseudocode of R193, R278; any key-down ends the wait by D18). -/
def Obligations.KeyWaitEndsWithNextKeyDown : Prop :=
  (∀ (x : Reg) (s : State), exec (.waitKey x) s = .next { s with mode := .waitingForKey x, pc := s.pc + 2 }) ∧
  (∀ (x : Reg) (s : State) (code : Nat), s.mode = .waitingForKey x → code < 16 →
    (∃ t, serve .tick60Hz s = .next t ∧ t.mode = .waitingForKey x ∧ t.v = s.v) ∧
    (∃ t, serve (.reportKeyUp code) s = .next t ∧ t.mode = .waitingForKey x ∧ t.v = s.v) ∧
    serve (.reportKeyDown code) s =
      .next { s with
        v := s.v.set x.toNat (BitVec.ofNat 8 code) x.isLt
        keys := s.keys ||| BitVec.twoPow 16 code
        mode := .running })

/-- A `step` in the mode WaitingForKey fetches nothing, changes nothing and raises nothing (R130). -/
def Obligations.StepWhileWaitingIsNoOp : Prop :=
  ∀ (s : State) (x : Reg), s.mode = .waitingForKey x → serve .step s = .next s

/-- `reportKeyDown` outside a wait sets the key's bit and changes nothing else, in Running and in Halted alike (R278,
R281; Halted by the spec's decision D20). -/
def Obligations.KeyDownOutsideWaitSetsItsBit : Prop :=
  ∀ (s : State) (code : Nat), code < 16 → (∀ x, s.mode ≠ .waitingForKey x) →
    ∃ t, serve (.reportKeyDown code) s = .next t ∧ t = { s with keys := t.keys } ∧
      ∀ k, k < 16 → t.keys.getLsbD k = (s.keys.getLsbD k || decide (k = code))

/-- `reportKeyUp` clears the key's bit and changes nothing else, in every mode: it ends no wait and writes no register,
and releasing a key that is not held is a no-op (R279; that it acts in Halted is R281, the spec's decision D20; log 14). -/
def Obligations.KeyUpClearsItsBit : Prop :=
  ∀ (s : State) (code : Nat), code < 16 →
    ∃ t, serve (.reportKeyUp code) s = .next t ∧ t = { s with keys := t.keys } ∧
      (∀ k, k < 16 → t.keys.getLsbD k = (s.keys.getLsbD k && decide (k ≠ code))) ∧
      (s.keys.getLsbD code = false → t = s)

/-- `tick60Hz` takes each timer that is not 0 one down, leaves one that is 0, and changes nothing else, in every mode
(R276, R277; one atomic tick for both timers is the spec's decision D36, and that it acts in Halted is R281, its decision
D20; log 14). -/
def Obligations.TickCountsBothTimersDown : Prop :=
  ∀ s : State, serve .tick60Hz s =
    .next { s with
      dt := if 0 < s.dt.toNat then BitVec.ofNat 8 (s.dt.toNat - 1) else s.dt
      st := if 0 < s.st.toNat then BitVec.ofNat 8 (s.st.toNat - 1) else s.st }

/-- `n` ticks in a row bring each timer down by `n`, clamped at 0, in every mode (R276, R277, R281; 95_test_vectors.md E4;
both timers in one tick is the spec's decision D36, and the tick in Halted its decision D20, log 14; the list of events is
the model's form, log 1). -/
def Obligations.ManyTicksClampTimersAtZero : Prop :=
  ∀ (n : Nat) (s : State), s.pending = List.replicate n .tick60Hz →
    core.run n s =
      .next { s with
        dt := BitVec.ofNat 8 (s.dt.toNat - n)
        st := BitVec.ofNat 8 (s.st.toNat - n)
        pending := [] }

/-- The event `step` does not touch the timers; the only instructions that write one are `LD DT, Vx` and `LD ST, Vx`
(R132). -/
def Obligations.StepWritesTimersOnlyByTimerLoads : Prop :=
  ∀ s t : State, serve .step s = .next t →
    (t.dt ≠ s.dt → ∃ w x, s.fetch16 = some w ∧ decodeWord w = some (.setDT x)) ∧
    (t.st ≠ s.st → ∃ w x, s.fetch16 = some w ∧ decodeWord w = some (.setST x))

/-- Sound output: active exactly while `ST ≠ 0`; it turns on or off at `LD ST, Vx` by `V[x]`, off at the tick that
takes `ST` from 1 to 0, in every mode, and off at load (R285; that the tick still turns it off in Halted is R281, the
spec's decision D20; log 14). -/
def Obligations.SoundActiveExactlyWhileSoundTimerRuns : Prop :=
  (∀ s : State, s.soundActive = true ↔ s.st ≠ 0) ∧
  (∀ (x : Reg) (s : State), ∃ t, exec (.setST x) s = .next t ∧ (t.soundActive = true ↔ s.v[x.toNat]'x.isLt ≠ 0)) ∧
  (∀ s : State, ∃ t, serve .tick60Hz s = .next t ∧ (s.st = 1 → t.soundActive = false) ∧
    (1 < s.st.toNat → t.soundActive = true)) ∧
  (∀ (bytes : List Byte) (s : State), bytes.length ≤ 3584 →
    ∃ t, serve (.load bytes) s = .next t ∧ t.soundActive = false)

/-! Memory, BCD and bulk moves (20_memory.md; 44_memory_bcd_font.md). -/

/-- `LD B, Vx` with its three bytes in memory: hundreds, tens, ones at `I`, `I+1`, `I+2`; every other byte, every
register, `I` and all else unchanged (pseudocode of R212; range by D8). -/
def Obligations.BcdStoresThreeDigits : Prop :=
  ∀ (x : Reg) (s : State), s.i.toNat ≤ 4093 →
    ∃ t, exec (.ldBcd x) s = .next t ∧ t = { s with pc := s.pc + 2, mem := t.mem } ∧
      (t.peek s.i.toNat).toNat = (s.v[x.toNat]'x.isLt).toNat / 100 ∧
      (t.peek (s.i.toNat + 1)).toNat = (s.v[x.toNat]'x.isLt).toNat / 10 % 10 ∧
      (t.peek (s.i.toNat + 2)).toNat = (s.v[x.toNat]'x.isLt).toNat % 10 ∧
      ∀ a, (a < s.i.toNat ∨ s.i.toNat + 3 ≤ a) → t.peek a = s.peek a

/-- `LD [I], Vx` with its range in memory, under either value of BULK_INCLUSIVE: byte `I + k` is `V[k]` for each of the
`cnt` registers; every other byte, every register, `I` and all else unchanged (pseudocode of R213; range by D8, the
parameter by D15). -/
def Obligations.BulkStoreWritesRegisterBytes : Prop :=
  ∀ (x : Reg) (s : State) (cnt : Nat), cnt = (if s.params.bulkInclusive then x.toNat + 1 else x.toNat) →
    (cnt = 0 ∨ s.i.toNat + cnt - 1 ≤ 4095) →
    ∃ t, exec (.storeRegs x) s = .next t ∧ t = { s with pc := s.pc + 2, mem := t.mem } ∧
      (∀ r : Reg, r.toNat < cnt → t.peek (s.i.toNat + r.toNat) = s.v[r.toNat]'r.isLt) ∧
      ∀ a, (a < s.i.toNat ∨ s.i.toNat + cnt ≤ a) → t.peek a = s.peek a

/-- `LD Vx, [I]` with its range in memory, under either value of BULK_INCLUSIVE: `V[k]` is byte `I + k` for each of the
`cnt` registers; every other register, memory, `I` and all else unchanged (pseudocode of R214; range by D8, the
parameter by D15). -/
def Obligations.BulkLoadReadsRegisterBytes : Prop :=
  ∀ (x : Reg) (s : State) (cnt : Nat), cnt = (if s.params.bulkInclusive then x.toNat + 1 else x.toNat) →
    (cnt = 0 ∨ s.i.toNat + cnt - 1 ≤ 4095) →
    ∃ t, exec (.loadRegs x) s = .next t ∧ t = { s with pc := s.pc + 2, v := t.v } ∧
      ∀ r : Reg, t.v[r.toNat]'r.isLt =
        if r.toNat < cnt then s.peek (s.i.toNat + r.toNat) else s.v[r.toNat]'r.isLt

/-- Bulk store and then bulk load of the same range from the same base gives back every register of the range, whatever
the registers held in between (R214; 95_test_vectors.md S7; under either value of the parameter of D15). -/
def Obligations.BulkStoreThenLoadRoundTrips : Prop :=
  ∀ (x : Reg) (s t u : State) (v' : Vector Byte 16), ¬ s.isHalted →
    exec (.storeRegs x) s = .next t → ¬ t.isHalted → exec (.loadRegs x) { t with v := v' } = .next u →
    ¬ u.isHalted ∧ u.i = s.i ∧ ∀ r : Reg, u.v[r.toNat]'r.isLt =
      if r.toNat < s.bulkCount x then s.v[r.toNat]'r.isLt else v'[r.toNat]'r.isLt

/-- A range that leaves memory halts the core with `DataOutOfBounds`, the lowest address of the range above 4095 and the
instruction's word, identity and operands, and changes nothing else: no byte, register or pixel (R65, R266, R268; the
range and address by the spec's decision D8, the unchanged state by D10, log 4, the cause by D11). -/
def Obligations.DataOutOfBoundsChangesNothing : Prop :=
  ∀ (s : State) (ins : Instr) (cnt : Nat),
    ((∃ x y n, ins = .drw x y n ∧ cnt = n.toNat) ∨ (∃ x, ins = .ldBcd x ∧ cnt = 3) ∨
      (∃ x, (ins = .storeRegs x ∨ ins = .loadRegs x) ∧
        cnt = if s.params.bulkInclusive then x.toNat + 1 else x.toNat)) →
    0 < cnt → 4095 < s.i.toNat + cnt - 1 →
    exec ins s =
      .next { s with
        mode := .halted
          { cause := .dataOutOfBounds, pc0 := s.pc, word := some (encode ins), instr := some ins,
            addr := some (if s.i.toNat < 4096 then 4096 else s.i.toNat) } }

/-- A word that `LD [I], Vx` stores is the word the next fetch reads there: self-modifying code is exact (R76; the
stored range under either value of the parameter of D15). -/
def Obligations.StoredWordIsFetchedNext : Prop :=
  ∀ (x : Reg) (s t : State) (k : Reg), ¬ s.isHalted → exec (.storeRegs x) s = .next t → ¬ t.isHalted →
    t.pc.toNat = s.i.toNat + k.toNat → k.toNat + 1 < s.bulkCount x →
    t.fetch16 = some (s.getV k ++ s.getV (k + 1))

/-! The step cycle (40_step_cycle.md). -/

/-- The fetch is big-endian at every `pc`, odd or even, up to 4094; above that the step halts with `FetchOutOfBounds`,
no word and the address `pc`, and changes nothing else (R62, R73, R262, R268, R269; bound by the spec's decision D6, odd
`pc` by D7, the unchanged state by D10, log 4; the cause by D11; the recorded `pc0` and address are R269's own additions). -/
def Obligations.FetchIsBigEndianAndBounded : Prop :=
  (∀ s : State, s.pc.toNat ≤ 4094 →
    ∃ w, s.fetch16 = some w ∧ w.toNat = (s.peek s.pc.toNat).toNat * 256 + (s.peek (s.pc.toNat + 1)).toNat) ∧
  (∀ s : State, 4094 < s.pc.toNat → s.mode = .running →
    serve .step s =
      .next { s with
        mode := .halted
          { cause := .fetchOutOfBounds, pc0 := s.pc, word := none, instr := none, addr := some s.pc.toNat } })

/-- A fetched word that no descriptor matches halts the core with `UnimplementedInstruction`, its address and the word,
and no identity, and changes nothing else but the trace record: the `pc` advance is discarded (R263, R268; the unchanged
state is the spec's decision D10, log 4; the cause by its decision D11 and the record's form by R269; the trace record by
R40, log 5). -/
def Obligations.UnimplementedWordHalts : Prop :=
  ∀ (s : State) (w : Word), s.mode = .running → s.fetch16 = some w → decodeWord w = none →
    serve .step s =
      .next { s with
        mode := .halted
          { cause := .unimplementedInstruction, pc0 := s.pc, word := some w, instr := none, addr := none }
        trace := some { word := w, instr := none } }

/-- A step runs the decoded instruction: `exec` of it, with the trace record written, and the trace output showing the
word, the identity and the operands, whether it halted the core or not (R124, R128, R129, R286; that a raising step
records too is R40, log 5). It does so where no event is pending and where the next pending event is `step` (log 1). -/
def Obligations.StepRunsTheDecodedInstruction : Prop :=
  ∀ (s : State) (w : Word) (ins : Instr), s.mode = .running → s.fetch16 = some w → decodeWord w = some ins →
    (∀ t, exec ins s = .next t → serve .step s = .next { t with trace := some { word := w, instr := some ins } }) ∧
    (∀ t, serve .step s = .next t → t.traceOutput = some (w, some (ins.row, ins.operands))) ∧
    (s.pending = [] → step s = serve .step s) ∧
    (∀ rest, step { s with pending := .step :: rest } = serve .step { s with pending := rest })

/-- A step of the machine serves the first pending event, one atomic transition, and leaves the others in their order;
where none is pending it serves the driver's `step` (R121, R122; the list is the model's form, log 1). -/
def Obligations.StepServesPendingEventsInOrder : Prop :=
  (∀ s : State, s.pending = [] → step s = serve .step s) ∧
  (∀ (s : State) (e : Event) (rest : List Event), s.pending = e :: rest →
    step s = serve e { s with pending := rest } ∧ ∀ t, step s = .next t → t.pending = rest)

/-- Every instruction answers a next state from every state: no fault, no refusal (R261, R268, R271; that a fatal
condition is a next state is log 4). -/
def Obligations.EveryInstructionAnswersNext : Prop :=
  ∀ (i : Instr) (s : State), ∃ t, exec i s = .next t

/-- A key code above 15 and a load of more than 3584 bytes have no meaning and the event is refused by name; every
other step, from every state, has a next state (R280, R303; the spec's decisions D19, D24). -/
def Obligations.StepStopsOnlyOnMeaninglessEvents : Prop :=
  ∀ s : State,
    (∀ code rest, 15 < code →
      (s.pending = .reportKeyDown code :: rest ∨ s.pending = .reportKeyUp code :: rest) →
      step s = .refused (.keyCodeOutOfRange code)) ∧
    (∀ bytes rest, 3584 < bytes.length → s.pending = .load bytes :: rest →
      step s = .refused (.programTooLong bytes.length)) ∧
    ((∀ code rest, (s.pending = .reportKeyDown code :: rest ∨ s.pending = .reportKeyUp code :: rest) → code ≤ 15) →
      (∀ bytes rest, s.pending = .load bytes :: rest → bytes.length ≤ 3584) →
      ∃ t, step s = .next t)

/-! Frames of all 35 instructions. -/

/-- A register changes only where it is the instruction's own destination, `VF` under one of the six flag-writing
instructions, or in the range of a bulk load (R21, R22; the range under either value of the parameter of D15; where the
instruction halts the core no register changes, by the spec's decision D10). -/
def Obligations.RegistersChangeOnlyAtDestinations : Prop :=
  ∀ (i : Instr) (s t : State) (r : Reg), exec i s = .next t → i.dest ≠ some r →
    (i.setsFlag = true → r ≠ 15) → (∀ x, i = .loadRegs x → s.bulkCount x ≤ r.toNat) →
    t.v[r.toNat]'r.isLt = s.v[r.toNat]'r.isLt

/-- A byte of memory changes only under `LD B, Vx` at `I` to `I+2` and `LD [I], Vx` at `I` to `I+cnt-1` (R61; the range
under either value of the parameter of D15; where the instruction halts the core no byte changes, by the spec's decision
D10). -/
def Obligations.MemoryChangesOnlyAtStoredBytes : Prop :=
  ∀ (i : Instr) (s t : State) (a : Nat), exec i s = .next t →
    (∀ x, i = .ldBcd x → a < s.i.toNat ∨ s.i.toNat + 3 ≤ a) →
    (∀ x, i = .storeRegs x → a < s.i.toNat ∨ s.i.toNat + s.bulkCount x ≤ a) →
    t.peek a = s.peek a

/-- `I`, the stack, the display, the timers and the mode change only under the instructions that write them, or, for the
mode, where the instruction halts the core, and the keys under none (R29, R31, R36, R38, R39, R42; where it halts the
core nothing else changes, by the spec's decision D10). The other clauses are about the model's own fields and form: the
count of draws changes only under `RND` (log 2), the parameters (log 3) and the events not yet served (log 1) under no
instruction, and the trace under none, since the step around `exec` writes it (R40, log 5). -/
def Obligations.OtherStateChangesOnlyByItsInstructions : Prop :=
  ∀ (i : Instr) (s t : State), exec i s = .next t →
    ((∀ nnn x, i ≠ .ldI nnn ∧ i ≠ .addI x ∧ i ≠ .ldFont x) → t.i = s.i) ∧
    ((∀ nnn, i ≠ .call nnn ∧ i ≠ .ret) → t.stack = s.stack) ∧
    ((∀ x y n, i ≠ .drw x y n ∧ i ≠ .cls) → t.fb = s.fb) ∧
    ((∀ x, i ≠ .setDT x) → t.dt = s.dt) ∧
    ((∀ x, i ≠ .setST x) → t.st = s.st) ∧
    ((∀ x, i ≠ .waitKey x) → ¬ t.isHalted → t.mode = s.mode) ∧
    ((∀ x kk, i ≠ .rnd x kk) → t.draws = s.draws) ∧
    t.keys = s.keys ∧ t.trace = s.trace ∧ t.params = s.params ∧ t.pending = s.pending

/-! Fatal conditions (60_exceptions.md). -/

/-- Fatal conditions are precise: an instruction that halts the core has changed nothing but the mode, so `pc` still
addresses it (R268; the spec's decision D10). -/
def Obligations.FatalConditionsArePrecise : Prop :=
  ∀ (i : Instr) (s t : State), ¬ s.isHalted → exec i s = .next t → t.isHalted → t = { s with mode := t.mode }

/-- An instruction halts the core exactly in the cases R261 lists for the execute phase (ranges by the spec's decision
D8, the bulk count under either value of the parameter of D15, no range for `DRW` with `n = 0` by D22). R261 lists `sp =
16` for `CALL`, by C1; that it halts above 16 too, in states that no run reaches, is the model's choice (log 8). -/
def Obligations.InstructionsHaltExactlyWhenListed : Prop :=
  ∀ (i : Instr) (s : State), ¬ s.isHalted →
    ((∃ t, exec i s = .next t ∧ t.isHalted) ↔
      (∃ nnn, i = .call nnn ∧ 16 ≤ s.sp) ∨ (i = .ret ∧ s.sp = 0) ∨
      (∃ x y n, i = .drw x y n ∧ n ≠ 0 ∧ 4095 < s.i.toNat + n.toNat - 1) ∨
      (∃ x, i = .ldBcd x ∧ 4093 < s.i.toNat) ∨
      (∃ x, (i = .storeRegs x ∨ i = .loadRegs x) ∧ 0 < s.bulkCount x ∧ 4095 < s.i.toNat + s.bulkCount x - 1))

/-- The four instructions that access data memory (R266). -/
def accessesData (i : Instr) : Prop :=
  (∃ x y n, i = .drw x y n) ∨ ∃ x, i = .ldBcd x ∨ i = .storeRegs x ∨ i = .loadRegs x

/-- The halt report is the fault record of the mode Halted, and there is none in another mode (R284). The record that a
step leaves names the address of the instruction, the word that was fetched, with none where the fetch itself failed, the
instruction that the word decodes to, with none where it decodes to none, and the offending address, with none but for
causes 1 and 5; and its code is the one that R261 gives the phase and the instruction (R261, R269; the five codes are the
spec's decision D11, the address of cause 5 its decision D8, and that the record holds the two addresses is R269's own
addition; log 14). -/
def Obligations.FaultRecordNamesTheFetchedWord : Prop :=
  (∀ (s : State) (info : FaultRecord), s.haltReport = some info ↔ s.mode = .halted info) ∧
  ∀ (s t : State) (info : FaultRecord), s.mode = .running → serve .step s = .next t → t.haltReport = some info →
    info.pc0 = s.pc ∧ info.word = s.fetch16 ∧ info.instr = s.fetch16.bind decodeWord ∧
    (info.cause.code = 1 ↔ s.fetch16 = none) ∧
    (info.cause.code = 2 ↔ ∃ w, s.fetch16 = some w ∧ decodeWord w = none) ∧
    (info.cause.code = 3 ↔ ∃ w nnn, s.fetch16 = some w ∧ decodeWord w = some (.call nnn)) ∧
    (info.cause.code = 4 ↔ ∃ w, s.fetch16 = some w ∧ decodeWord w = some .ret) ∧
    (info.cause.code = 5 ↔ ∃ w i, s.fetch16 = some w ∧ decodeWord w = some i ∧ accessesData i) ∧
    info.addr =
      if info.cause.code = 1 then some s.pc.toNat
      else if info.cause.code = 5 then some (if s.i.toNat < 4096 then 4096 else s.i.toNat)
      else none

/-- In Halted a `step` changes nothing; ticks and key events act on the timers and the keys alone; only `load` leaves
it, to Running (R131, R270, R281; the spec's decision D20). -/
def Obligations.HaltedIsLeftOnlyByLoad : Prop :=
  ∀ (s t : State) (e : Event), s.isHalted → serve e s = .next t →
    (e = .step → t = s) ∧
    (t.mode = s.mode ∧ t = { s with dt := t.dt, st := t.st, keys := t.keys } ∨
      (∃ bytes, e = .load bytes) ∧ t.mode = .running)

/-! Display (45_display.md). -/

/-- `plotPixel` wraps, exclusive-ORs one pixel and leaves the others, and reports exactly a 1 to 0 transition (R230). -/
def Obligations.PlotPixelXorsOneWrappedPixel : Prop :=
  ∀ (fb : Surface) (px py : Nat) (bit : Bool),
    ((plotPixel fb px py bit).1 = true ↔ pixelAt fb (px % 64) (py % 32) = true ∧ bit = true) ∧
    ∀ x y : Nat, x < 64 → y < 32 →
      pixelAt (plotPixel fb px py bit).2 x y =
        if x = px % 64 ∧ y = py % 32 then Bool.xor (pixelAt fb x y) bit else pixelAt fb x y

/-- A set bit of the sprite lands on the pixel (R231): bit `7 - c` of row `r` at column `V[x] + c`, row `V[y] + r`,
wrapped. -/
def spriteCovers (s : State) (x y : Reg) (n : Nibble) (px py : Nat) : Prop :=
  ∃ r c : Nat, r < n.toNat ∧ c < 8 ∧ (s.peek (s.i.toNat + r)).getLsbD (7 - c) = true ∧
    ((s.v[x.toNat]'x.isLt).toNat + c) % 64 = px ∧ ((s.v[y.toNat]'y.isLt).toNat + r) % 32 = py

/-- `DRW Vx, Vy, n` with its rows in memory: exactly the covered pixels flip, `VF` is 1 exactly when a covered pixel was
on, and nothing else changes but the pc advance; `n = 0` draws nothing and clears `VF` (pseudocode of R233; range by D8,
bit order by D21, coordinates before `VF` by D12, `n = 0` by D22). -/
def Obligations.DrawFlipsExactlyTheCoveredPixels : Prop :=
  ∀ (x y : Reg) (n : Nibble) (s : State), (n = 0 ∨ s.i.toNat + n.toNat - 1 ≤ 4095) →
    ∃ t, exec (.drw x y n) s = .next t ∧
      t = { s with pc := s.pc + 2, fb := t.fb, v := s.v.set 15 (t.v[15]) } ∧
      (∀ px py : Nat, px < 64 → py < 32 →
        (pixelAt t.fb px py = pixelAt s.fb px py ↔ ¬ spriteCovers s x y n px py)) ∧
      (t.v[15] = 1 ∨ t.v[15] = 0) ∧
      (t.v[15] = 1 ↔ ∃ px py : Nat, px < 64 ∧ py < 32 ∧ spriteCovers s x y n px py ∧ pixelAt s.fb px py = true)

/-- Drawing the same sprite twice at the same place restores the display (R233 corner case 6; 95_test_vectors.md S4).
Where both draws complete, the first reports no collision exactly when every covered pixel was off, and the second
reports one exactly when some covered pixel was off, which the first draw turned on and the second turns off. The order
of a row's bits is the spec's decision D21, the range check D8, and the display kept by a draw that halts D10. The
coordinates are not in `VF`, which the first draw writes. -/
def Obligations.DrawingTwiceRestoresTheDisplay : Prop :=
  ∀ (x y : Reg) (n : Nibble) (s t u : State), x ≠ 15 → y ≠ 15 →
    exec (.drw x y n) s = .next t → exec (.drw x y n) t = .next u →
    u.fb = s.fb ∧
    (¬ s.isHalted → ¬ t.isHalted →
      (t.v[15] = 0 ↔ ∀ px py, spriteCovers s x y n px py → pixelAt s.fb px py = false) ∧
      (u.v[15] = 1 ↔ ∃ px py, spriteCovers s x y n px py ∧ pixelAt s.fb px py = false))

/-- `CLS` (R232, R234, whole): its encoding before `SYS`, every pixel 0 whatever it was, no other change but the pc
advance. -/
def Obligations.ClearScreenClearsEveryPixel : Prop :=
  decodeWord 0x00E0 = some .cls ∧
  ∀ s : State, ∃ t, exec .cls s = .next t ∧ t = { s with pc := s.pc + 2, fb := t.fb } ∧
    ∀ x y : Nat, x < 64 → y < 32 → pixelAt t.fb x y = false

/-! The no-op (46_noop.md). -/

/-- `SYS nnn`: every word `0nnn` but `00E0` and `00EE`, and nothing but the pc advance (R250; the bit pattern is the
spec's decision D2). -/
def Obligations.SysOnlyAdvances : Prop :=
  (∀ w : Word, w &&& 0xF000 = 0x0000 → w ≠ 0x00E0 → w ≠ 0x00EE →
    decodeWord w = some (.sys (w.extractLsb' 0 12))) ∧
  ∀ (nnn : Addr12) (s : State), exec (.sys nnn) s = .next { s with pc := s.pc + 2 }

/-! Reset and load (70_reset_and_hazards.md). -/

/-- The reset values of the registers, the program counter, `I`, the stack, the timers, the display, the keys and the
mode (R24, R28, R30, R35, R36, R38, R39, R42; `sp` as a count is the spec's decision D5, and that the model starts there
log 11). -/
def Obligations.ResetValues : Prop :=
  (∀ r : Reg, State.reset.v[r.toNat]'r.isLt = 0) ∧ State.reset.pc = 512 ∧ State.reset.i = 0 ∧ State.reset.sp = 0 ∧
  State.reset.dt = 0 ∧ State.reset.st = 0 ∧ (∀ x y : Nat, pixelAt State.reset.fb x y = false) ∧
  State.reset.keys = 0 ∧ State.reset.mode = .running

/-- `load(bytes)` from any state (R301, R67): the font, the program from 512, zero elsewhere, and every register of the
machine at its reset value. That the three fields of the model's own stay is the model's choice (log 10). -/
def Obligations.LoadLeavesTheResetState : Prop :=
  ∀ (bytes : List Byte) (s : State), bytes.length ≤ 3584 →
    ∃ t, serve (.load bytes) s = .next t ∧
      (∀ r : Reg, t.v[r.toNat]'r.isLt = 0) ∧ t.i = 0 ∧ t.pc = 512 ∧ t.stack = [] ∧ t.dt = 0 ∧ t.st = 0 ∧
      (∀ x y : Nat, pixelAt t.fb x y = false) ∧ t.keys = 0 ∧ t.mode = .running ∧ t.trace = none ∧
      (∀ (a : Nat) (h : a < 80), t.peek a = s.params.font[a]) ∧
      (∀ (k : Nat) (h : k < bytes.length), t.peek (512 + k) = bytes[k]) ∧
      (∀ a : Nat, a < 4096 → 80 ≤ a → (a < 512 ∨ 512 + bytes.length ≤ a) → t.peek a = 0) ∧
      t.params = s.params ∧ t.draws = s.draws ∧ t.pending = s.pending

/-- The state after reset is the load of the empty program, under the default parameters (R45; that this is the model's
initial state is the model's choice, log 11). -/
def Obligations.ResetIsLoadOfTheEmptyProgram : Prop :=
  ∀ s : State, s.params = Params.default → s.draws = 0 → s.pending = [] → serve (.load []) s = .next State.reset

/-! Noninterference. -/

/-- All instructions but `RND` are deterministic: the draws do not reach what they do (R133; D26, log 2). -/
def Obligations.DrawsReachOnlyRandomLoad : Prop :=
  ∀ (i : Instr) (s t : State) (d : Nat), (∀ x kk, i ≠ .rnd x kk) → exec i s = .next t →
    exec i { s with draws := d } = .next { t with draws := d }

/-- The trace record has no effect: two states that differ in it alone step to states that differ in it alone (R40,
R129; a step serves the first pending event, log 1). -/
def Obligations.TraceHasNoEffect : Prop :=
  ∀ (s t : State) (r : Option TraceRecord), step s = .next t →
    ∃ t', step { s with trace := r } = .next t' ∧ { t' with trace := none } = { t with trace := none }

/-! The invariant. -/

/-- Every step keeps the machine invariant: `pc` at most 0x10FE, at most 16 stack entries and each within memory's
bounds, canonical memory, a halted `pc` at the faulting instruction with a record of its cause's shape, a trace that
names what its word decodes to, or none (R25, R32, R140, R268, R269, R129; the halted `pc` by the spec's decision D10,
the causes by D11, the bound of `pc` by D4, the count of stack entries by D5, canonical memory by log 9, the stack as a
list by log 8, the trace of a raising step by log 5). -/
def Obligations.EveryStepKeepsTheMachineInvariant : Prop :=
  ∀ s t : State, s.Inv → step s = .next t → t.Inv

/-- The invariant holds at reset (R302, R25, R32; the reset state is log 11). -/
def Obligations.ResetMeetsTheMachineInvariant : Prop := State.reset.Inv

/-! The trace output (10_state.md R40; 60_exceptions.md R286). -/

/-- The fields of a word that its instruction uses, cut from the word as numbers, in the order `x`, `y`, then the
immediate (R91, R93, R94; the ignored `y` of `SHR` and `SHL` is left out, log 17). -/
def fieldsInTraceOrder (w : Word) : List Nat :=
  let x := w.toNat / 256 % 16
  let y := w.toNat / 16 % 16
  match w.toNat / 4096 with
  | 0x0 => if w = 0x00E0 ∨ w = 0x00EE then [] else [w.toNat % 4096]
  | 0x1 | 0x2 | 0xA | 0xB => [w.toNat % 4096]
  | 0x3 | 0x4 | 0x6 | 0x7 | 0xC => [x, w.toNat % 256]
  | 0x5 | 0x9 => [x, y]
  | 0x8 => if w.toNat % 16 = 0x6 ∨ w.toNat % 16 = 0xE then [x] else [x, y]
  | 0xD => [x, y, w.toNat % 16]
  | _ => [x]

/-- The trace output shows the word of the last step that reached the decode phase, halting or not, with the row and the
fields of its instruction in the declared order, or none where no descriptor matched (R40, R93, R286; a raising step by
log 5, the `y` that shifts do not list by log 17; the places of `y` and `n` are the spec's decision D3, the patterns and
masks D2, D13, D28). No other event changes it but `load`, which sets it to none. -/
def Obligations.TraceOutputShowsTheLastDecodedStep : Prop :=
  (∀ (w : Word) (i : Instr), decodeWord w = some i → i.operands = fieldsInTraceOrder w) ∧
  (∀ (s t : State) (w : Word), s.mode = .running → s.fetch16 = some w → serve .step s = .next t →
    t.traceOutput = some (w, (scanTable w).map fun row => (row, fieldsInTraceOrder w))) ∧
  (∀ (s t : State) (e : Event), serve e s = .next t →
    (e = .step → s.mode = .running → s.fetch16 = none) → (∀ bytes, e ≠ .load bytes) →
    t.traceOutput = s.traceOutput) ∧
  (∀ (s t : State) (bytes : List Byte), serve (.load bytes) s = .next t → t.traceOutput = none)
end

