-- ==== Sys2Proof/Laws/Decode.lean ====
section
/-! SUPPORT. The fields and formats as arithmetic, the fields of a word built by a format, and the fields a mask fixes:
what every decoding proof needs. -/

namespace Sys2Proof

/-! The fields as arithmetic on the word. -/

theorem Field.op_toNat (w : Word) : (Field.op w).toNat = w.toNat / 4096 := by
  have := w.isLt
  simp only [Field.op, BitVec.extractLsb'_toNat, Nat.shiftRight_eq_div_pow]
  omega

theorem Field.x_toNat (w : Word) : (Field.x w).toNat = w.toNat / 256 % 16 := by
  simp only [Field.x, BitVec.extractLsb'_toNat, Nat.shiftRight_eq_div_pow]

theorem Field.y_toNat (w : Word) : (Field.y w).toNat = w.toNat / 16 % 16 := by
  simp only [Field.y, BitVec.extractLsb'_toNat, Nat.shiftRight_eq_div_pow]

theorem Field.n_toNat (w : Word) : (Field.n w).toNat = w.toNat % 16 := by
  simp [Field.n, BitVec.extractLsb'_toNat]

theorem Field.kk_toNat (w : Word) : (Field.kk w).toNat = w.toNat % 256 := by
  simp [Field.kk, BitVec.extractLsb'_toNat]

theorem Field.nnn_toNat (w : Word) : (Field.nnn w).toNat = w.toNat % 4096 := by
  simp [Field.nnn, BitVec.extractLsb'_toNat]

/-! The formats as arithmetic on their fields. -/

theorem append_toNat {n m : Nat} (a : BitVec n) (b : BitVec m) : (a ++ b).toNat = a.toNat * 2 ^ m + b.toNat := by
  rw [BitVec.toNat_append, ← Nat.shiftLeft_add_eq_or_of_lt b.isLt, Nat.shiftLeft_eq]

theorem formatA_toNat (op : Nibble) (nnn : Addr12) : (formatA op nnn).toNat = op.toNat * 4096 + nnn.toNat :=
  append_toNat op nnn

theorem formatXK_toNat (op : Nibble) (x : Reg) (kk : Byte) :
    (formatXK op x kk).toNat = op.toNat * 4096 + x.toNat * 256 + kk.toNat := by
  refine (append_toNat (op ++ x) kk).trans ?_
  rw [append_toNat]
  omega

theorem formatXYN_toNat (op : Nibble) (x y : Reg) (n : Nibble) :
    (formatXYN op x y n).toNat = op.toNat * 4096 + x.toNat * 256 + y.toNat * 16 + n.toNat := by
  refine (append_toNat (op ++ x) (y ++ n)).trans ?_
  rw [append_toNat, append_toNat]
  omega

/-! The fields of each format. -/

@[simp] theorem Field.op_formatA (op : Nibble) (nnn : Addr12) : Field.op (formatA op nnn) = op := by
  apply BitVec.eq_of_toNat_eq
  rw [Field.op_toNat, formatA_toNat]
  omega

@[simp] theorem Field.nnn_formatA (op : Nibble) (nnn : Addr12) : Field.nnn (formatA op nnn) = nnn := by
  apply BitVec.eq_of_toNat_eq
  rw [Field.nnn_toNat, formatA_toNat]
  omega

@[simp] theorem Field.op_formatXK (op : Nibble) (x : Reg) (kk : Byte) : Field.op (formatXK op x kk) = op := by
  apply BitVec.eq_of_toNat_eq
  rw [Field.op_toNat, formatXK_toNat]
  omega

@[simp] theorem Field.x_formatXK (op : Nibble) (x : Reg) (kk : Byte) : Field.x (formatXK op x kk) = x := by
  apply BitVec.eq_of_toNat_eq
  rw [Field.x_toNat, formatXK_toNat]
  omega

@[simp] theorem Field.kk_formatXK (op : Nibble) (x : Reg) (kk : Byte) : Field.kk (formatXK op x kk) = kk := by
  apply BitVec.eq_of_toNat_eq
  rw [Field.kk_toNat, formatXK_toNat]
  omega

@[simp] theorem Field.op_formatXYN (op : Nibble) (x y : Reg) (n : Nibble) : Field.op (formatXYN op x y n) = op := by
  apply BitVec.eq_of_toNat_eq
  rw [Field.op_toNat, formatXYN_toNat]
  omega

@[simp] theorem Field.x_formatXYN (op : Nibble) (x y : Reg) (n : Nibble) : Field.x (formatXYN op x y n) = x := by
  apply BitVec.eq_of_toNat_eq
  rw [Field.x_toNat, formatXYN_toNat]
  omega

@[simp] theorem Field.y_formatXYN (op : Nibble) (x y : Reg) (n : Nibble) : Field.y (formatXYN op x y n) = y := by
  apply BitVec.eq_of_toNat_eq
  rw [Field.y_toNat, formatXYN_toNat]
  omega

@[simp] theorem Field.n_formatXYN (op : Nibble) (x y : Reg) (n : Nibble) : Field.n (formatXYN op x y n) = n := by
  apply BitVec.eq_of_toNat_eq
  rw [Field.n_toNat, formatXYN_toNat]
  omega

/-! The fields a mask fixes (30_encoding.md R95). -/

/-- A word is its fields. -/
theorem word_eq_formatXK (w : Word) : w = formatXK (Field.op w) (Field.x w) (Field.kk w) := by
  apply BitVec.eq_of_toNat_eq
  rw [formatXK_toNat, Field.op_toNat, Field.x_toNat, Field.kk_toNat]
  omega

theorem word_eq_formatXYN (w : Word) : w = formatXYN (Field.op w) (Field.x w) (Field.y w) (Field.n w) := by
  apply BitVec.eq_of_toNat_eq
  rw [formatXYN_toNat, Field.op_toNat, Field.x_toNat, Field.y_toNat, Field.n_toNat]
  omega

theorem word_eq_formatA (w : Word) : w = formatA (Field.op w) (Field.nnn w) := by
  apply BitVec.eq_of_toNat_eq
  rw [formatA_toNat, Field.op_toNat, Field.nnn_toNat]
  omega

theorem Field.op_and (w m : Word) : Field.op (w &&& m) = Field.op w &&& Field.op m :=
  BitVec.extractLsb'_and

theorem Field.x_and (w m : Word) : Field.x (w &&& m) = Field.x w &&& Field.x m :=
  BitVec.extractLsb'_and

theorem Field.y_and (w m : Word) : Field.y (w &&& m) = Field.y w &&& Field.y m :=
  BitVec.extractLsb'_and

theorem Field.n_and (w m : Word) : Field.n (w &&& m) = Field.n w &&& Field.n m :=
  BitVec.extractLsb'_and

theorem Field.kk_and (w m : Word) : Field.kk (w &&& m) = Field.kk w &&& Field.kk m :=
  BitVec.extractLsb'_and

/-- Two words are equal when their four nibbles are. -/
theorem word_ext (w w' : Word) (ho : Field.op w = Field.op w') (hx : Field.x w = Field.x w')
    (hy : Field.y w = Field.y w') (hn : Field.n w = Field.n w') : w = w' := by
  rw [word_eq_formatXYN w, word_eq_formatXYN w', ho, hx, hy, hn]

/-- The mask 0xF000 fixes the primary opcode and nothing else. -/
theorem mask_op (w : Word) : w &&& 0xF000 = formatXYN (Field.op w) 0 0 0 := by
  apply word_ext
  · rw [Field.op_and, Field.op_formatXYN, show Field.op 0xF000 = BitVec.allOnes 4 from by decide, BitVec.and_allOnes]
  · rw [Field.x_and, Field.x_formatXYN, show Field.x 0xF000 = 0#4 from by decide, BitVec.and_zero]; rfl
  · rw [Field.y_and, Field.y_formatXYN, show Field.y 0xF000 = 0#4 from by decide, BitVec.and_zero]; rfl
  · rw [Field.n_and, Field.n_formatXYN, show Field.n 0xF000 = 0#4 from by decide, BitVec.and_zero]; rfl

/-- The mask 0xF00F fixes the primary opcode and the low nibble. -/
theorem mask_op_n (w : Word) : w &&& 0xF00F = formatXYN (Field.op w) 0 0 (Field.n w) := by
  apply word_ext
  · rw [Field.op_and, Field.op_formatXYN, show Field.op 0xF00F = BitVec.allOnes 4 from by decide, BitVec.and_allOnes]
  · rw [Field.x_and, Field.x_formatXYN, show Field.x 0xF00F = 0#4 from by decide, BitVec.and_zero]; rfl
  · rw [Field.y_and, Field.y_formatXYN, show Field.y 0xF00F = 0#4 from by decide, BitVec.and_zero]; rfl
  · rw [Field.n_and, Field.n_formatXYN, show Field.n 0xF00F = BitVec.allOnes 4 from by decide, BitVec.and_allOnes]

/-- The mask 0xF0FF fixes the primary opcode and the low byte. -/
theorem mask_op_kk (w : Word) : w &&& 0xF0FF = formatXK (Field.op w) 0 (Field.kk w) := by
  conv_rhs => rw [word_eq_formatXYN (formatXK (Field.op w) 0 (Field.kk w))]
  have hy : Field.y (formatXK (Field.op w) 0 (Field.kk w)) = Field.y w := by
    apply BitVec.eq_of_toNat_eq
    rw [Field.y_toNat, Field.y_toNat, formatXK_toNat, Field.op_toNat, Field.kk_toNat]
    simp only [show (0 : Reg).toNat = 0 from rfl]
    omega
  have hn : Field.n (formatXK (Field.op w) 0 (Field.kk w)) = Field.n w := by
    apply BitVec.eq_of_toNat_eq
    rw [Field.n_toNat, Field.n_toNat, formatXK_toNat, Field.op_toNat, Field.kk_toNat]
    simp only [show (0 : Reg).toNat = 0 from rfl]
    omega
  rw [hy, hn, Field.op_formatXK, Field.x_formatXK]
  apply word_ext
  · rw [Field.op_and, Field.op_formatXYN, show Field.op 0xF0FF = BitVec.allOnes 4 from by decide, BitVec.and_allOnes]
  · rw [Field.x_and, Field.x_formatXYN, show Field.x 0xF0FF = 0#4 from by decide, BitVec.and_zero]; rfl
  · rw [Field.y_and, Field.y_formatXYN, show Field.y 0xF0FF = BitVec.allOnes 4 from by decide, BitVec.and_allOnes]
  · rw [Field.n_and, Field.n_formatXYN, show Field.n 0xF0FF = BitVec.allOnes 4 from by decide, BitVec.and_allOnes]

/-- The fields of two bytes laid out in memory and read back. -/
@[simp] theorem wordOfBytes_highByte_lowByte (w : Word) : wordOfBytes (highByte w) (lowByte w) = w := by
  apply BitVec.eq_of_toNat_eq
  refine (append_toNat (highByte w) (lowByte w)).trans ?_
  simp only [highByte, lowByte, BitVec.extractLsb'_toNat, Nat.shiftRight_eq_div_pow]
  omega

end Sys2Proof
end

