-- ==== Sys2Proof/Laws/State.lean ====
section
/-! SUPPORT. One lemma per field per update of the state, and what `getV` and `peek` see of each. -/

namespace Sys2Proof.Machine

variable (s : State)

/-- Reading a register after writing one. -/
theorem State.getV_setV (x y : Reg) (b : Byte) : (s.setV x b).getV y = if x = y then b else s.getV y := by
  simp [State.setV, State.getV, Vector.getElem_set, BitVec.toNat_inj]

@[simp] theorem State.getV_setV_self (x : Reg) (b : Byte) : (s.setV x b).getV x = b := by
  simp [State.getV_setV]

theorem State.getV_setV_of_ne (x y : Reg) (b : Byte) (h : x ≠ y) : (s.setV x b).getV y = s.getV y := by
  simp [State.getV_setV, h]

/-! `setV` -/

@[simp] theorem State.setV_v (x : Reg) (b : Byte) : (s.setV x b).v = s.v.set x.toNat b x.isLt := rfl
@[simp] theorem State.setV_i (x : Reg) (b : Byte) : (s.setV x b).i = s.i := rfl
@[simp] theorem State.setV_pc (x : Reg) (b : Byte) : (s.setV x b).pc = s.pc := rfl
@[simp] theorem State.setV_stack (x : Reg) (b : Byte) : (s.setV x b).stack = s.stack := rfl
@[simp] theorem State.setV_dt (x : Reg) (b : Byte) : (s.setV x b).dt = s.dt := rfl
@[simp] theorem State.setV_st (x : Reg) (b : Byte) : (s.setV x b).st = s.st := rfl
@[simp] theorem State.setV_mem (x : Reg) (b : Byte) : (s.setV x b).mem = s.mem := rfl
@[simp] theorem State.setV_fb (x : Reg) (b : Byte) : (s.setV x b).fb = s.fb := rfl
@[simp] theorem State.setV_keys (x : Reg) (b : Byte) : (s.setV x b).keys = s.keys := rfl
@[simp] theorem State.setV_mode (x : Reg) (b : Byte) : (s.setV x b).mode = s.mode := rfl
@[simp] theorem State.setV_trace (x : Reg) (b : Byte) : (s.setV x b).trace = s.trace := rfl
@[simp] theorem State.setV_params (x : Reg) (b : Byte) : (s.setV x b).params = s.params := rfl
@[simp] theorem State.setV_draws (x : Reg) (b : Byte) : (s.setV x b).draws = s.draws := rfl
@[simp] theorem State.setV_pending (x : Reg) (b : Byte) : (s.setV x b).pending = s.pending := rfl

@[simp] theorem State.setV_peek (x : Reg) (b : Byte) (a : Nat) : (s.setV x b).peek a = s.peek a := rfl

/-! `setI` -/

@[simp] theorem State.setI_v (a : Word) : (s.setI a).v = s.v := rfl
@[simp] theorem State.setI_i (a : Word) : (s.setI a).i = a := rfl
@[simp] theorem State.setI_pc (a : Word) : (s.setI a).pc = s.pc := rfl
@[simp] theorem State.setI_stack (a : Word) : (s.setI a).stack = s.stack := rfl
@[simp] theorem State.setI_dt (a : Word) : (s.setI a).dt = s.dt := rfl
@[simp] theorem State.setI_st (a : Word) : (s.setI a).st = s.st := rfl
@[simp] theorem State.setI_mem (a : Word) : (s.setI a).mem = s.mem := rfl
@[simp] theorem State.setI_fb (a : Word) : (s.setI a).fb = s.fb := rfl
@[simp] theorem State.setI_keys (a : Word) : (s.setI a).keys = s.keys := rfl
@[simp] theorem State.setI_mode (a : Word) : (s.setI a).mode = s.mode := rfl
@[simp] theorem State.setI_trace (a : Word) : (s.setI a).trace = s.trace := rfl
@[simp] theorem State.setI_params (a : Word) : (s.setI a).params = s.params := rfl
@[simp] theorem State.setI_draws (a : Word) : (s.setI a).draws = s.draws := rfl
@[simp] theorem State.setI_pending (a : Word) : (s.setI a).pending = s.pending := rfl

@[simp] theorem State.setI_getV (a : Word) (r : Reg) : (s.setI a).getV r = s.getV r := rfl
@[simp] theorem State.setI_peek (w : Word) (a : Nat) : (s.setI w).peek a = s.peek a := rfl

/-! `setPc` -/

@[simp] theorem State.setPc_v (a : Word) : (s.setPc a).v = s.v := rfl
@[simp] theorem State.setPc_i (a : Word) : (s.setPc a).i = s.i := rfl
@[simp] theorem State.setPc_pc (a : Word) : (s.setPc a).pc = a := rfl
@[simp] theorem State.setPc_stack (a : Word) : (s.setPc a).stack = s.stack := rfl
@[simp] theorem State.setPc_dt (a : Word) : (s.setPc a).dt = s.dt := rfl
@[simp] theorem State.setPc_st (a : Word) : (s.setPc a).st = s.st := rfl
@[simp] theorem State.setPc_mem (a : Word) : (s.setPc a).mem = s.mem := rfl
@[simp] theorem State.setPc_fb (a : Word) : (s.setPc a).fb = s.fb := rfl
@[simp] theorem State.setPc_keys (a : Word) : (s.setPc a).keys = s.keys := rfl
@[simp] theorem State.setPc_mode (a : Word) : (s.setPc a).mode = s.mode := rfl
@[simp] theorem State.setPc_trace (a : Word) : (s.setPc a).trace = s.trace := rfl
@[simp] theorem State.setPc_params (a : Word) : (s.setPc a).params = s.params := rfl
@[simp] theorem State.setPc_draws (a : Word) : (s.setPc a).draws = s.draws := rfl
@[simp] theorem State.setPc_pending (a : Word) : (s.setPc a).pending = s.pending := rfl

@[simp] theorem State.setPc_getV (a : Word) (r : Reg) : (s.setPc a).getV r = s.getV r := rfl
@[simp] theorem State.setPc_peek (w : Word) (a : Nat) : (s.setPc w).peek a = s.peek a := rfl

/-! `advance` -/

@[simp] theorem State.advance_v : (s.advance).v = s.v := rfl
@[simp] theorem State.advance_i : (s.advance).i = s.i := rfl
@[simp] theorem State.advance_pc : (s.advance).pc = s.pc + 2 := rfl
@[simp] theorem State.advance_stack : (s.advance).stack = s.stack := rfl
@[simp] theorem State.advance_dt : (s.advance).dt = s.dt := rfl
@[simp] theorem State.advance_st : (s.advance).st = s.st := rfl
@[simp] theorem State.advance_mem : (s.advance).mem = s.mem := rfl
@[simp] theorem State.advance_fb : (s.advance).fb = s.fb := rfl
@[simp] theorem State.advance_keys : (s.advance).keys = s.keys := rfl
@[simp] theorem State.advance_mode : (s.advance).mode = s.mode := rfl
@[simp] theorem State.advance_trace : (s.advance).trace = s.trace := rfl
@[simp] theorem State.advance_params : (s.advance).params = s.params := rfl
@[simp] theorem State.advance_draws : (s.advance).draws = s.draws := rfl
@[simp] theorem State.advance_pending : (s.advance).pending = s.pending := rfl

@[simp] theorem State.advance_getV (r : Reg) : (s.advance).getV r = s.getV r := rfl
@[simp] theorem State.advance_peek (a : Nat) : (s.advance).peek a = s.peek a := rfl

/-! `skipIf` -/

@[simp] theorem State.skipIf_v (c : Bool) : (s.skipIf c).v = s.v := by cases c <;> rfl
@[simp] theorem State.skipIf_i (c : Bool) : (s.skipIf c).i = s.i := by cases c <;> rfl
@[simp] theorem State.skipIf_pc (c : Bool) : (s.skipIf c).pc = if c then s.pc + 2 else s.pc := by cases c <;> rfl
@[simp] theorem State.skipIf_stack (c : Bool) : (s.skipIf c).stack = s.stack := by cases c <;> rfl
@[simp] theorem State.skipIf_dt (c : Bool) : (s.skipIf c).dt = s.dt := by cases c <;> rfl
@[simp] theorem State.skipIf_st (c : Bool) : (s.skipIf c).st = s.st := by cases c <;> rfl
@[simp] theorem State.skipIf_mem (c : Bool) : (s.skipIf c).mem = s.mem := by cases c <;> rfl
@[simp] theorem State.skipIf_fb (c : Bool) : (s.skipIf c).fb = s.fb := by cases c <;> rfl
@[simp] theorem State.skipIf_keys (c : Bool) : (s.skipIf c).keys = s.keys := by cases c <;> rfl
@[simp] theorem State.skipIf_mode (c : Bool) : (s.skipIf c).mode = s.mode := by cases c <;> rfl
@[simp] theorem State.skipIf_trace (c : Bool) : (s.skipIf c).trace = s.trace := by cases c <;> rfl
@[simp] theorem State.skipIf_params (c : Bool) : (s.skipIf c).params = s.params := by cases c <;> rfl
@[simp] theorem State.skipIf_draws (c : Bool) : (s.skipIf c).draws = s.draws := by cases c <;> rfl
@[simp] theorem State.skipIf_pending (c : Bool) : (s.skipIf c).pending = s.pending := by cases c <;> rfl

@[simp] theorem State.skipIf_getV (c : Bool) (r : Reg) : (s.skipIf c).getV r = s.getV r := by cases c <;> rfl
@[simp] theorem State.skipIf_peek (c : Bool) (a : Nat) : (s.skipIf c).peek a = s.peek a := by cases c <;> rfl

/-! `raise` -/

@[simp] theorem State.raise_v (info : FaultRecord) : (s.raise info).v = s.v := rfl
@[simp] theorem State.raise_i (info : FaultRecord) : (s.raise info).i = s.i := rfl
@[simp] theorem State.raise_pc (info : FaultRecord) : (s.raise info).pc = s.pc := rfl
@[simp] theorem State.raise_stack (info : FaultRecord) : (s.raise info).stack = s.stack := rfl
@[simp] theorem State.raise_dt (info : FaultRecord) : (s.raise info).dt = s.dt := rfl
@[simp] theorem State.raise_st (info : FaultRecord) : (s.raise info).st = s.st := rfl
@[simp] theorem State.raise_mem (info : FaultRecord) : (s.raise info).mem = s.mem := rfl
@[simp] theorem State.raise_fb (info : FaultRecord) : (s.raise info).fb = s.fb := rfl
@[simp] theorem State.raise_keys (info : FaultRecord) : (s.raise info).keys = s.keys := rfl
@[simp] theorem State.raise_mode (info : FaultRecord) : (s.raise info).mode = .halted info := rfl
@[simp] theorem State.raise_trace (info : FaultRecord) : (s.raise info).trace = s.trace := rfl
@[simp] theorem State.raise_params (info : FaultRecord) : (s.raise info).params = s.params := rfl
@[simp] theorem State.raise_draws (info : FaultRecord) : (s.raise info).draws = s.draws := rfl
@[simp] theorem State.raise_pending (info : FaultRecord) : (s.raise info).pending = s.pending := rfl

@[simp] theorem State.raise_getV (info : FaultRecord) (r : Reg) : (s.raise info).getV r = s.getV r := rfl
@[simp] theorem State.raise_peek (info : FaultRecord) (a : Nat) : (s.raise info).peek a = s.peek a := rfl

/-! `setFlagThen` -/

@[simp] theorem State.setFlagThen_i (c : Bool) (x : Reg) (b : Byte) : (s.setFlagThen c x b).i = s.i := rfl
@[simp] theorem State.setFlagThen_pc (c : Bool) (x : Reg) (b : Byte) : (s.setFlagThen c x b).pc = s.pc := rfl
@[simp] theorem State.setFlagThen_stack (c : Bool) (x : Reg) (b : Byte) : (s.setFlagThen c x b).stack = s.stack := rfl
@[simp] theorem State.setFlagThen_dt (c : Bool) (x : Reg) (b : Byte) : (s.setFlagThen c x b).dt = s.dt := rfl
@[simp] theorem State.setFlagThen_st (c : Bool) (x : Reg) (b : Byte) : (s.setFlagThen c x b).st = s.st := rfl
@[simp] theorem State.setFlagThen_mem (c : Bool) (x : Reg) (b : Byte) : (s.setFlagThen c x b).mem = s.mem := rfl
@[simp] theorem State.setFlagThen_fb (c : Bool) (x : Reg) (b : Byte) : (s.setFlagThen c x b).fb = s.fb := rfl
@[simp] theorem State.setFlagThen_keys (c : Bool) (x : Reg) (b : Byte) : (s.setFlagThen c x b).keys = s.keys := rfl
@[simp] theorem State.setFlagThen_mode (c : Bool) (x : Reg) (b : Byte) : (s.setFlagThen c x b).mode = s.mode := rfl
@[simp] theorem State.setFlagThen_trace (c : Bool) (x : Reg) (b : Byte) : (s.setFlagThen c x b).trace = s.trace := rfl
@[simp] theorem State.setFlagThen_params (c : Bool) (x : Reg) (b : Byte) : (s.setFlagThen c x b).params = s.params := rfl
@[simp] theorem State.setFlagThen_draws (c : Bool) (x : Reg) (b : Byte) : (s.setFlagThen c x b).draws = s.draws := rfl
@[simp] theorem State.setFlagThen_pending (c : Bool) (x : Reg) (b : Byte) : (s.setFlagThen c x b).pending = s.pending := rfl

@[simp] theorem State.setFlagThen_peek (c : Bool) (x : Reg) (b : Byte) (a : Nat) : (s.setFlagThen c x b).peek a = s.peek a := rfl

/-! `recordTrace` -/

@[simp] theorem State.recordTrace_v (w : Word) (ins : Option Instr) : (s.recordTrace w ins).v = s.v := rfl
@[simp] theorem State.recordTrace_i (w : Word) (ins : Option Instr) : (s.recordTrace w ins).i = s.i := rfl
@[simp] theorem State.recordTrace_pc (w : Word) (ins : Option Instr) : (s.recordTrace w ins).pc = s.pc := rfl
@[simp] theorem State.recordTrace_stack (w : Word) (ins : Option Instr) : (s.recordTrace w ins).stack = s.stack := rfl
@[simp] theorem State.recordTrace_dt (w : Word) (ins : Option Instr) : (s.recordTrace w ins).dt = s.dt := rfl
@[simp] theorem State.recordTrace_st (w : Word) (ins : Option Instr) : (s.recordTrace w ins).st = s.st := rfl
@[simp] theorem State.recordTrace_mem (w : Word) (ins : Option Instr) : (s.recordTrace w ins).mem = s.mem := rfl
@[simp] theorem State.recordTrace_fb (w : Word) (ins : Option Instr) : (s.recordTrace w ins).fb = s.fb := rfl
@[simp] theorem State.recordTrace_keys (w : Word) (ins : Option Instr) : (s.recordTrace w ins).keys = s.keys := rfl
@[simp] theorem State.recordTrace_mode (w : Word) (ins : Option Instr) : (s.recordTrace w ins).mode = s.mode := rfl
@[simp] theorem State.recordTrace_trace (w : Word) (ins : Option Instr) :
    (s.recordTrace w ins).trace = some { word := w, instr := ins } := rfl
@[simp] theorem State.recordTrace_params (w : Word) (ins : Option Instr) : (s.recordTrace w ins).params = s.params := rfl
@[simp] theorem State.recordTrace_draws (w : Word) (ins : Option Instr) : (s.recordTrace w ins).draws = s.draws := rfl
@[simp] theorem State.recordTrace_pending (w : Word) (ins : Option Instr) : (s.recordTrace w ins).pending = s.pending := rfl

@[simp] theorem State.recordTrace_getV (w : Word) (ins : Option Instr) (r : Reg) : (s.recordTrace w ins).getV r = s.getV r := rfl
@[simp] theorem State.recordTrace_peek (w : Word) (ins : Option Instr) (a : Nat) : (s.recordTrace w ins).peek a = s.peek a := rfl

/-! `completeWait` -/

@[simp] theorem State.completeWait_i (code : Nat) : (s.completeWait code).i = s.i := by
  unfold State.completeWait; split <;> rfl
@[simp] theorem State.completeWait_pc (code : Nat) : (s.completeWait code).pc = s.pc := by
  unfold State.completeWait; split <;> rfl
@[simp] theorem State.completeWait_stack (code : Nat) : (s.completeWait code).stack = s.stack := by
  unfold State.completeWait; split <;> rfl
@[simp] theorem State.completeWait_dt (code : Nat) : (s.completeWait code).dt = s.dt := by
  unfold State.completeWait; split <;> rfl
@[simp] theorem State.completeWait_st (code : Nat) : (s.completeWait code).st = s.st := by
  unfold State.completeWait; split <;> rfl
@[simp] theorem State.completeWait_mem (code : Nat) : (s.completeWait code).mem = s.mem := by
  unfold State.completeWait; split <;> rfl
@[simp] theorem State.completeWait_fb (code : Nat) : (s.completeWait code).fb = s.fb := by
  unfold State.completeWait; split <;> rfl
@[simp] theorem State.completeWait_keys (code : Nat) : (s.completeWait code).keys = s.keys := by
  unfold State.completeWait; split <;> rfl
@[simp] theorem State.completeWait_trace (code : Nat) : (s.completeWait code).trace = s.trace := by
  unfold State.completeWait; split <;> rfl
@[simp] theorem State.completeWait_params (code : Nat) : (s.completeWait code).params = s.params := by
  unfold State.completeWait; split <;> rfl
@[simp] theorem State.completeWait_draws (code : Nat) : (s.completeWait code).draws = s.draws := by
  unfold State.completeWait; split <;> rfl
@[simp] theorem State.completeWait_pending (code : Nat) : (s.completeWait code).pending = s.pending := by
  unfold State.completeWait; split <;> rfl

@[simp] theorem State.completeWait_peek (code : Nat) (a : Nat) : (s.completeWait code).peek a = s.peek a := by
  unfold State.completeWait; split <;> rfl

/-! `load` -/

@[simp] theorem State.load_v (bytes : List Byte) : (s.load bytes).v = Vector.replicate 16 0 := rfl
@[simp] theorem State.load_i (bytes : List Byte) : (s.load bytes).i = 0 := rfl
@[simp] theorem State.load_pc (bytes : List Byte) : (s.load bytes).pc = 512 := rfl
@[simp] theorem State.load_stack (bytes : List Byte) : (s.load bytes).stack = [] := rfl
@[simp] theorem State.load_dt (bytes : List Byte) : (s.load bytes).dt = 0 := rfl
@[simp] theorem State.load_st (bytes : List Byte) : (s.load bytes).st = 0 := rfl
@[simp] theorem State.load_mem (bytes : List Byte) : (s.load bytes).mem = Memory.writeBytes s.params.font [] progBase bytes := rfl
@[simp] theorem State.load_fb (bytes : List Byte) : (s.load bytes).fb = Vector.replicate 32 0 := rfl
@[simp] theorem State.load_keys (bytes : List Byte) : (s.load bytes).keys = 0 := rfl
@[simp] theorem State.load_mode (bytes : List Byte) : (s.load bytes).mode = .running := rfl
@[simp] theorem State.load_trace (bytes : List Byte) : (s.load bytes).trace = none := rfl
@[simp] theorem State.load_params (bytes : List Byte) : (s.load bytes).params = s.params := rfl
@[simp] theorem State.load_draws (bytes : List Byte) : (s.load bytes).draws = s.draws := rfl
@[simp] theorem State.load_pending (bytes : List Byte) : (s.load bytes).pending = s.pending := rfl

/-! `setFlagThen`, `draw8`: what they do. -/

/-- The result overwrites the flag where the destination is `VF`. -/
theorem State.setFlagThen_getV (c : Bool) (x r : Reg) (b : Byte) :
    (s.setFlagThen c x b).getV r = if x = r then b else if Reg.flag = r then flagByte c else s.getV r := by
  simp [State.setFlagThen, State.getV_setV]

@[simp] theorem State.draw8_fst : s.draw8.1 = Config.draw8 s.draws := rfl
@[simp] theorem State.draw8_snd : s.draw8.2 = { s with draws := s.draws + 1 } := rfl

end Sys2Proof.Machine
end

