-- ==== Sys2Proof/Laws/Memory.lean ====
section
/-! SUPPORT. The laws of memory: what a read sees after a write, and that every operation keeps the canonical form. -/

namespace Sys2Proof.Machine

theorem Memory.lookup_insert (m : List Host.Cell) (a a' : Nat) (b : Byte) :
    Memory.lookup (Memory.insert m a b) a' = if a = a' then some b else Memory.lookup m a' := by
  induction m with
  | nil => simp [Memory.insert, Memory.lookup]
  | cons c m ih =>
    unfold Memory.insert
    split
    · simp [Memory.lookup]
    · split
      · next h =>
        simp only [Memory.lookup, ← h]
        split <;> rfl
      · simp only [Memory.lookup, ih]
        split <;> split <;> first | rfl | omega

theorem Memory.lookup_erase (m : List Host.Cell) (a a' : Nat) :
    Memory.lookup (m.filter (fun c => c.1 ≠ a)) a' = if a = a' then none else Memory.lookup m a' := by
  induction m with
  | nil => simp [Memory.lookup]
  | cons c m ih =>
    by_cases h : c.1 = a
    · rw [List.filter_cons_of_neg (by simpa using h), ih]
      by_cases h' : a = a'
      · simp [h']
      · simp [h', Memory.lookup, show ¬ c.1 = a' by omega]
    · rw [List.filter_cons_of_pos (by simpa using h)]
      simp only [Memory.lookup, ih]
      by_cases h' : c.1 = a'
      · simp [h', show ¬ a = a' by omega]
      · simp [h']

/-- A read after a write: the byte written at its own address, the old byte at every other. -/
theorem Memory.read_write (font : Vector Byte 80) (m : List Host.Cell) (a a' : Nat) (b : Byte) :
    Memory.read font (Memory.write font m a b) a' = if a = a' then b else Memory.read font m a' := by
  unfold Memory.write Memory.read
  split
  · rw [Memory.lookup_erase]
    split <;> simp_all
  · rw [Memory.lookup_insert]
    split <;> simp

/-- A read after a write of several bytes at rising addresses. -/
theorem Memory.read_writeBytes (font : Vector Byte 80) (bs : List Byte) (m : List Host.Cell) (a a' : Nat) :
    Memory.read font (Memory.writeBytes font m a bs) a' =
      if h : a ≤ a' ∧ a' < a + bs.length then bs[a' - a] else Memory.read font m a' := by
  induction bs generalizing m a with
  | nil => simp [Memory.writeBytes, show ¬ (a ≤ a' ∧ a' < a) by omega]
  | cons b bs ih =>
    rw [Memory.writeBytes, ih, Memory.read_write]
    by_cases h : a = a'
    · subst h
      simp
    · by_cases h' : a + 1 ≤ a' ∧ a' < a + 1 + bs.length
      · have e : a' - a = a' - (a + 1) + 1 := by omega
        rw [dif_pos h', dif_pos (by simp only [List.length_cons]; omega)]
        simp only [e, List.getElem_cons_succ]
      · rw [dif_neg h', if_neg h, dif_neg (by simp only [List.length_cons]; omega)]

theorem Memory.mem_insert (m : List Host.Cell) (a : Nat) (b : Byte) (c : Host.Cell)
    (h : c ∈ Memory.insert m a b) : c = (a, b) ∨ c ∈ m := by
  induction m with
  | nil => simpa [Memory.insert] using h
  | cons d m ih =>
    unfold Memory.insert at h
    split at h
    · simpa using h
    · split at h
      · simp only [List.mem_cons] at h ⊢
        tauto
      · simp only [List.mem_cons] at h ⊢
        tauto

theorem Memory.insert_sorted (m : List Host.Cell) (a : Nat) (b : Byte)
    (h : m.Pairwise (fun c d => c.1 < d.1)) : (Memory.insert m a b).Pairwise (fun c d => c.1 < d.1) := by
  induction m with
  | nil => simp [Memory.insert]
  | cons c m ih =>
    obtain ⟨hc, hm⟩ := List.pairwise_cons.1 h
    unfold Memory.insert
    split
    · next lt =>
      refine List.pairwise_cons.2 ⟨fun d hd => ?_, h⟩
      rcases List.mem_cons.1 hd with rfl | hd
      · exact lt
      · exact lt_trans lt (hc d hd)
    · split
      · next eq => exact List.pairwise_cons.2 ⟨fun d hd => eq ▸ hc d hd, hm⟩
      · refine List.pairwise_cons.2 ⟨fun d hd => ?_, ih hm⟩
        rcases Memory.mem_insert m a b d hd with rfl | hd
        · simp only
          omega
        · exact hc d hd

/-- A write inside memory keeps the canonical form. -/
theorem Memory.write_wf (font : Vector Byte 80) (m : List Host.Cell) (a : Nat) (b : Byte) (ha : a < memSize)
    (h : Memory.wf font m) : Memory.wf font (Memory.write font m a b) := by
  obtain ⟨hs, hm⟩ := h
  unfold Memory.write
  split
  · exact ⟨hs.filter _, fun c hc => hm c (List.mem_filter.1 hc).1⟩
  · next ne =>
    refine ⟨Memory.insert_sorted m a b hs, fun c hc => ?_⟩
    rcases Memory.mem_insert m a b c hc with rfl | hc
    · exact ⟨ha, ne⟩
    · exact hm c hc

/-- A write of several bytes inside memory keeps the canonical form. -/
theorem Memory.writeBytes_wf (font : Vector Byte 80) (bs : List Byte) (m : List Host.Cell) (a : Nat)
    (ha : a + bs.length ≤ memSize) (h : Memory.wf font m) : Memory.wf font (Memory.writeBytes font m a bs) := by
  induction bs generalizing m a with
  | nil => exact h
  | cons b bs ih =>
    simp only [List.length_cons] at ha
    exact ih _ _ (by omega) (Memory.write_wf font m a b (by omega) h)

/-- Nothing listed is canonical: the memory of `State.reset`. -/
theorem Memory.nil_wf (font : Vector Byte 80) : Memory.wf font [] := by simp [Memory.wf]

end Sys2Proof.Machine
end

