-- ==== Sys2Proof/Laws/Ops.lean ====
section
/-! SUPPORT. For each shared operation, everything it can do, said once. -/

namespace Sys2Proof.Machine

theorem inMemory_iff (a cnt : Nat) : inMemory a cnt = true ↔ cnt = 0 ∨ a + cnt ≤ 4096 := by
  simp only [inMemory, Bool.or_eq_true, beq_iff_eq, decide_eq_true_eq]
  exact Iff.rfl

/-- A range is read exactly when all of it lies in memory; byte `k` is the one at `a + k`. -/
theorem State.readBytes_eq_some (s : State) (a cnt : Nat) (bs : List Byte) :
    s.readBytes a cnt = some bs ↔
      (cnt = 0 ∨ a + cnt ≤ 4096) ∧ bs = (List.range cnt).map fun k => s.peek (a + k) := by
  unfold State.readBytes
  split
  · next h => simp [(inMemory_iff a cnt).1 h, eq_comm]
  · next h => simp [mt (inMemory_iff a cnt).2 h]

theorem State.readBytes_eq_none (s : State) (a cnt : Nat) :
    s.readBytes a cnt = none ↔ ¬ (cnt = 0 ∨ a + cnt ≤ 4096) := by
  unfold State.readBytes
  split
  · next h => simp [(inMemory_iff a cnt).1 h]
  · next h => simp [mt (inMemory_iff a cnt).2 h]

/-- A range is written exactly when all of it lies in memory, and then memory alone changes. -/
theorem State.writeBytes_eq_some (s t : State) (a : Nat) (bs : List Byte) :
    s.writeBytes a bs = some t ↔
      (bs.length = 0 ∨ a + bs.length ≤ 4096) ∧
        t = { s with mem := Memory.writeBytes s.params.font s.mem a bs } := by
  unfold State.writeBytes
  split
  · next h =>
    simp only [Option.some.injEq, (inMemory_iff a bs.length).1 h, true_and]
    exact eq_comm
  · next h => simp only [mt (inMemory_iff a bs.length).2 h, false_and, reduceCtorEq]

theorem State.writeBytes_eq_none (s : State) (a : Nat) (bs : List Byte) :
    s.writeBytes a bs = none ↔ ¬ (bs.length = 0 ∨ a + bs.length ≤ 4096) := by
  unfold State.writeBytes
  split
  · next h => simp only [reduceCtorEq, (inMemory_iff a bs.length).1 h, not_true]
  · next h => simp only [mt (inMemory_iff a bs.length).2 h, not_false_iff]

/-- What each address reads as after a range is written. -/
theorem State.writeBytes_peek (s t : State) (a a' : Nat) (bs : List Byte) (h : s.writeBytes a bs = some t) :
    t.peek a' = if h : a ≤ a' ∧ a' < a + bs.length then bs[a' - a] else s.peek a' := by
  obtain ⟨-, rfl⟩ := (State.writeBytes_eq_some s t a bs).1 h
  exact Memory.read_writeBytes _ _ _ _ _

/-- The fetch succeeds exactly when both bytes lie in memory. -/
theorem State.fetch16_eq_some (s : State) (w : Word) :
    s.fetch16 = some w ↔
      s.pc.toNat ≤ 4094 ∧ w = wordOfBytes (s.peek s.pc.toNat) (s.peek (s.pc.toNat + 1)) := by
  unfold State.fetch16
  split
  · next h =>
    rw [inMemory_iff] at h
    simp [show s.pc.toNat ≤ 4094 by omega, eq_comm]
  · next h =>
    rw [inMemory_iff] at h
    simp [show ¬ s.pc.toNat ≤ 4094 by omega]

theorem State.fetch16_eq_none (s : State) : s.fetch16 = none ↔ 4094 < s.pc.toNat := by
  unfold State.fetch16
  split
  · next h =>
    rw [inMemory_iff] at h
    simp
    omega
  · next h =>
    rw [inMemory_iff] at h
    simp
    omega

/-- A push succeeds exactly below 16 entries, and then the stack alone changes. -/
theorem State.push_eq_some (s t : State) (a : Word) :
    s.push a = some t ↔ s.sp < 16 ∧ t = { s with stack := s.stack ++ [a] } := by
  unfold State.push stackDepth
  split
  · next h => simp [show ¬ s.sp < 16 by omega]
  · next h => simp [show s.sp < 16 by omega, eq_comm]

theorem State.push_eq_none (s : State) (a : Word) : s.push a = none ↔ 16 ≤ s.sp := by
  unfold State.push stackDepth
  split <;> simp_all

/-- A pop succeeds exactly with an entry, and then the stack alone changes. -/
theorem State.pop_eq_some (s t : State) (a : Word) :
    s.pop = some (a, t) ↔ ∃ st, s.stack = st ++ [a] ∧ t = { s with stack := st } := by
  unfold State.pop
  split
  · next h =>
    rw [List.getLast?_eq_none_iff] at h
    simp [h]
  · next b h =>
    obtain ⟨st, hst⟩ := List.getLast?_eq_some_iff.1 h
    simp only [hst, List.dropLast_concat, Option.some.injEq, Prod.mk.injEq]
    constructor
    · rintro ⟨rfl, rfl⟩
      exact ⟨st, rfl, rfl⟩
    · rintro ⟨st', e, rfl⟩
      obtain ⟨rfl, e'⟩ := List.append_inj' e rfl
      exact ⟨by simpa using e', rfl⟩

theorem State.pop_eq_none (s : State) : s.pop = none ↔ s.stack = [] := by
  unfold State.pop
  split
  · next h => simpa using List.getLast?_eq_none_iff.1 h
  · next b h =>
    obtain ⟨st, hst⟩ := List.getLast?_eq_some_iff.1 h
    simp [hst]

/-- `setRegs` changes no field but the registers. -/
theorem State.setRegs_eq (bs : List Byte) (s : State) (k : Nat) :
    s.setRegs k bs = { s with v := (s.setRegs k bs).v } := by
  induction bs generalizing s k with
  | nil => rfl
  | cons b bs ih => rw [State.setRegs, ih]; rfl

/-- Which byte each register holds after a range of registers is written. -/
theorem State.setRegs_getV (bs : List Byte) (s : State) (k : Nat) (r : Reg) (hk : k + bs.length ≤ 16) :
    (s.setRegs k bs).getV r =
      if h : k ≤ r.toNat ∧ r.toNat < k + bs.length then bs[r.toNat - k] else s.getV r := by
  induction bs generalizing s k with
  | nil => simp [State.setRegs, show ¬ (k ≤ r.toNat ∧ r.toNat < k) by omega]
  | cons b bs ih =>
    simp only [List.length_cons] at hk
    rw [State.setRegs, ih _ _ (by omega), State.getV_setV]
    have hn : (BitVec.ofNat 4 k).toNat = k := by
      rw [BitVec.toNat_ofNat]
      exact Nat.mod_eq_of_lt (by omega)
    by_cases h : k = r.toNat
    · simp [h]
    · have e : BitVec.ofNat 4 k ≠ r := fun e => h (by rw [← e, hn])
      by_cases h' : k + 1 ≤ r.toNat ∧ r.toNat < k + 1 + bs.length
      · have e' : r.toNat - k = r.toNat - (k + 1) + 1 := by omega
        rw [dif_pos h', dif_pos (by simp only [List.length_cons]; omega)]
        simp only [e', List.getElem_cons_succ]
      · rw [dif_neg h', if_neg e, dif_neg (by simp only [List.length_cons]; omega)]

/-- The bulk count is at most 16, since `x` is. -/
theorem State.bulkCount_le (s : State) (x : Reg) : s.bulkCount x ≤ 16 := by
  have := x.isLt
  unfold State.bulkCount
  split <;> omega

@[simp] theorem State.regBytes_length (s : State) (cnt : Nat) : (s.regBytes cnt).length = cnt := by
  simp [State.regBytes]

/-- Three digits, whatever the byte. -/
@[simp] theorem decimalDigits_length (b : Byte) : (decimalDigits b).length = 3 := rfl

/-- A load inside its precondition leaves a canonical memory. -/
theorem State.load_mem_wf (s : State) (bytes : List Byte) (h : bytes.length ≤ maxProgram) :
    Memory.wf (s.load bytes).params.font (s.load bytes).mem := by
  refine Memory.writeBytes_wf _ _ _ _ ?_ (Memory.nil_wf _)
  have : maxProgram = 3584 := rfl
  simp only [progBase, memSize]
  omega

end Sys2Proof.Machine
end

