-- ==== Sys2Proof/Laws/Exec.lean ====
section
/-! SUPPORT. What a next state can be, said once: for each instruction that can raise, for the event `step`, and for the
events of the other agents. Every other instruction has one next state, which unfolding its meaning gives. -/

namespace Sys2Proof.Machine

variable {s t : State}

/-- `RET` raises on the empty stack or pops. -/
theorem exec_ret_next (h : exec .ret s = .next t) :
    (s.stack = [] ∧ t = s.raiseExec .stackUnderflow .ret none) ∨
    ∃ st a, s.stack = st ++ [a] ∧ t = { s with stack := st, pc := a } := by
  simp only [exec, execRet] at h
  split at h
  · next e => cases h; exact .inl ⟨(State.pop_eq_none s).1 e, rfl⟩
  · next a u e =>
    obtain ⟨st, hs, rfl⟩ := (State.pop_eq_some _ _ _).1 e
    cases h
    exact .inr ⟨st, a, hs, rfl⟩

/-- `CALL` raises with 16 entries or pushes and jumps. -/
theorem exec_call_next {nnn : Addr12} (h : exec (.call nnn) s = .next t) :
    (16 ≤ s.sp ∧ t = s.raiseExec .stackOverflow (.call nnn) none) ∨
    (s.sp < 16 ∧ t = { s with stack := s.stack ++ [s.pc + 2], pc := nnn.toWord }) := by
  simp only [exec, execCall] at h
  split at h
  · next e => cases h; exact .inl ⟨(State.push_eq_none _ _).1 e, rfl⟩
  · next u e =>
    obtain ⟨hs, rfl⟩ := (State.push_eq_some _ _ _).1 e
    cases h
    exact .inr ⟨hs, rfl⟩

/-- `DRW` raises or draws. -/
theorem exec_drw_next {x y : Reg} {n : Nibble} (h : exec (.drw x y n) s = .next t) :
    (¬ (n.toNat = 0 ∨ s.i.toNat + n.toNat ≤ 4096) ∧ t = s.raiseData (.drw x y n)) ∨
    ((n.toNat = 0 ∨ s.i.toNat + n.toNat ≤ 4096) ∧ ∃ p,
      p = plotSprite s.fb (s.getV x).toNat (s.getV y).toNat
        ((List.range n.toNat).map fun k => s.peek (s.i.toNat + k)) ∧
      t = { s.advance with fb := p.2 }.setV Reg.flag (flagByte p.1)) := by
  simp only [exec, execDrw] at h
  split at h
  · next e => cases h; exact .inl ⟨(State.readBytes_eq_none _ _ _).1 e, rfl⟩
  · next bs e =>
    obtain ⟨hr, rfl⟩ := (State.readBytes_eq_some _ _ _ _).1 e
    cases h
    exact .inr ⟨hr, _, rfl, rfl⟩

/-- `LD B, Vx` raises or stores three bytes. -/
theorem exec_ldBcd_next {x : Reg} (h : exec (.ldBcd x) s = .next t) :
    (4096 < s.i.toNat + 3 ∧ t = s.raiseData (.ldBcd x)) ∨
    (s.i.toNat + 3 ≤ 4096 ∧ t = { s with
      pc := s.pc + 2
      mem := Memory.writeBytes s.params.font s.mem s.i.toNat (decimalDigits (s.getV x)) }) := by
  simp only [exec, execLdBcd] at h
  split at h
  · next e =>
    have := (State.writeBytes_eq_none _ _ _).1 e
    simp only [decimalDigits_length] at this
    cases h
    exact .inl ⟨by omega, rfl⟩
  · next u e =>
    obtain ⟨hr, rfl⟩ := (State.writeBytes_eq_some _ _ _ _).1 e
    simp only [decimalDigits_length] at hr
    cases h
    exact .inr ⟨by omega, rfl⟩

/-- `LD [I], Vx` raises or stores the bytes of its registers. -/
theorem exec_storeRegs_next {x : Reg} (h : exec (.storeRegs x) s = .next t) :
    (¬ (s.bulkCount x = 0 ∨ s.i.toNat + s.bulkCount x ≤ 4096) ∧ t = s.raiseData (.storeRegs x)) ∨
    ((s.bulkCount x = 0 ∨ s.i.toNat + s.bulkCount x ≤ 4096) ∧ t = { s with
      pc := s.pc + 2
      mem := Memory.writeBytes s.params.font s.mem s.i.toNat (s.regBytes (s.bulkCount x)) }) := by
  simp only [exec, execStoreRegs] at h
  split at h
  · next e =>
    have := (State.writeBytes_eq_none _ _ _).1 e
    rw [State.regBytes_length] at this
    cases h
    exact .inl ⟨this, rfl⟩
  · next u e =>
    obtain ⟨hr, rfl⟩ := (State.writeBytes_eq_some _ _ _ _).1 e
    rw [State.regBytes_length] at hr
    cases h
    exact .inr ⟨hr, rfl⟩

/-- `LD Vx, [I]` raises or loads its registers. -/
theorem exec_loadRegs_next {x : Reg} (h : exec (.loadRegs x) s = .next t) :
    (¬ (s.bulkCount x = 0 ∨ s.i.toNat + s.bulkCount x ≤ 4096) ∧ t = s.raiseData (.loadRegs x)) ∨
    ((s.bulkCount x = 0 ∨ s.i.toNat + s.bulkCount x ≤ 4096) ∧
      t = s.advance.setRegs 0 ((List.range (s.bulkCount x)).map fun k => s.peek (s.i.toNat + k))) := by
  simp only [exec, execLoadRegs] at h
  split at h
  · next e => cases h; exact .inl ⟨(State.readBytes_eq_none _ _ _).1 e, rfl⟩
  · next bs e =>
    obtain ⟨hr, rfl⟩ := (State.readBytes_eq_some _ _ _ _).1 e
    cases h
    exact .inr ⟨hr, rfl⟩

/-- Everything the event `step` can do. -/
theorem serveStep_next (h : serveStep s = .next t) :
    (s.mode ≠ .running ∧ t = s) ∨
    (s.mode = .running ∧ s.fetch16 = none ∧ t = s.raiseFetch) ∨
    (∃ w, s.mode = .running ∧ s.fetch16 = some w ∧ decodeWord w = none ∧
      t = (s.raiseDecode w).recordTrace w none) ∨
    ∃ w ins u, s.mode = .running ∧ s.fetch16 = some w ∧ decodeWord w = some ins ∧ exec ins s = .next u ∧
      t = u.recordTrace w (some ins) := by
  unfold serveStep at h
  split at h
  · next m => cases h; exact .inl ⟨by simp [m], rfl⟩
  · next m => cases h; exact .inl ⟨by simp [m], rfl⟩
  · next m =>
    split at h
    · next f => cases h; exact .inr (.inl ⟨m, f, rfl⟩)
    · next w f =>
      split at h
      · next d => cases h; exact .inr (.inr (.inl ⟨w, m, f, d, rfl⟩))
      · next ins d =>
        unfold executeAndRecord at h
        split at h
        · next u e => cases h; exact .inr (.inr (.inr ⟨w, ins, u, m, f, d, e, rfl⟩))
        · cases h
        · cases h

/-- What the trace output shows of a recorded step. -/
@[simp] theorem State.recordTrace_traceOutput (w : Word) (ins : Option Instr) :
    (s.recordTrace w ins).traceOutput = some (w, ins.map Instr.shown) := rfl

/-- Everything the events of the other agents can do (`step` is `serveStep_next`). -/
theorem serve_next {e : Event} (h : serve e s = .next t) :
    (e = .step ∧ serveStep s = .next t) ∨
    (e = .tick60Hz ∧ t = { s with dt := countDown s.dt, st := countDown s.st }) ∨
    (∃ code, e = .reportKeyDown code ∧ code < 16 ∧
      t = { s with keys := s.keys ||| BitVec.twoPow 16 code }.completeWait code) ∨
    (∃ code, e = .reportKeyUp code ∧ code < 16 ∧ t = { s with keys := s.keys &&& ~~~BitVec.twoPow 16 code }) ∨
    ∃ bytes, e = .load bytes ∧ bytes.length ≤ 3584 ∧ t = s.load bytes := by
  cases e with
  | step => exact .inl ⟨rfl, h⟩
  | tick60Hz => cases h; exact .inr (.inl ⟨rfl, rfl⟩)
  | reportKeyDown code =>
    simp only [serve, serveKeyDown] at h
    split at h
    · next c => cases h; exact .inr (.inr (.inl ⟨code, rfl, c, rfl⟩))
    · cases h
  | reportKeyUp code =>
    simp only [serve, serveKeyUp] at h
    split at h
    · next c => cases h; exact .inr (.inr (.inr (.inl ⟨code, rfl, c, rfl⟩)))
    · cases h
  | load bytes =>
    simp only [serve, serveLoad] at h
    split at h
    · next c => cases h; exact .inr (.inr (.inr (.inr ⟨bytes, rfl, c, rfl⟩)))
    · cases h

/-- A step serves the head of the pending events, or the driver's `step`. -/
theorem step_next (h : step s = .next t) :
    (s.pending = [] ∧ serve .step s = .next t) ∨
    ∃ e rest, s.pending = e :: rest ∧ serve e { s with pending := rest } = .next t := by
  unfold step serveNext at h
  split at h
  · next p => exact .inl ⟨p, h⟩
  · next e rest p => exact .inr ⟨e, rest, p, h⟩

end Sys2Proof.Machine
end

