-- ==== Sys2Proof/Laws/PerInstr.lean ====
section
/-! SUPPORT. The laws stated per instruction: the word of an instruction carries its row's match under its row's mask
(30_encoding.md R95, R97). -/

namespace Sys2Proof.Laws

/-- The descriptor of an instruction in the table. -/
def Opcode.descriptor (i : Instr) : Option Descriptor := descriptors.find? (fun d => d.row == i.row)

/-- The instruction has one descriptor and its word is selected by it. -/
def Opcode.Statement (i : Instr) : Prop :=
  ∃ d, Opcode.descriptor i = some d ∧ encode i &&& d.mask = d.pat

theorem Opcode.formatA_mask (op : Nibble) (nnn : Addr12) : formatA op nnn &&& 0xF000 = formatXYN op 0 0 0 := by
  rw [mask_op, Field.op_formatA]

theorem Opcode.formatXK_mask (op : Nibble) (x : Reg) (kk : Byte) :
    formatXK op x kk &&& 0xF000 = formatXYN op 0 0 0 := by
  rw [mask_op, Field.op_formatXK]

theorem Opcode.formatXYN_mask (op : Nibble) (x y : Reg) (n : Nibble) :
    formatXYN op x y n &&& 0xF000 = formatXYN op 0 0 0 := by
  rw [mask_op, Field.op_formatXYN]

theorem Opcode.formatXYN_mask_n (op : Nibble) (x y : Reg) (n : Nibble) :
    formatXYN op x y n &&& 0xF00F = formatXYN op 0 0 n := by
  rw [mask_op_n, Field.op_formatXYN, Field.n_formatXYN]

theorem Opcode.formatXK_mask_kk (op : Nibble) (x : Reg) (kk : Byte) :
    formatXK op x kk &&& 0xF0FF = formatXK op 0 kk := by
  rw [mask_op_kk, Field.op_formatXK, Field.kk_formatXK]

theorem Opcode.cls : Opcode.Statement .cls :=
  ⟨⟨1, 0xFFFF, 0x00E0⟩, rfl, rfl⟩

theorem Opcode.ret : Opcode.Statement .ret :=
  ⟨⟨2, 0xFFFF, 0x00EE⟩, rfl, rfl⟩

theorem Opcode.sys (nnn : Addr12) : Opcode.Statement (.sys nnn) :=
  ⟨⟨3, 0xF000, 0x0000⟩, rfl, (Opcode.formatA_mask _ _).trans (by decide)⟩

theorem Opcode.jp (nnn : Addr12) : Opcode.Statement (.jp nnn) :=
  ⟨⟨4, 0xF000, 0x1000⟩, rfl, (Opcode.formatA_mask _ _).trans (by decide)⟩

theorem Opcode.call (nnn : Addr12) : Opcode.Statement (.call nnn) :=
  ⟨⟨5, 0xF000, 0x2000⟩, rfl, (Opcode.formatA_mask _ _).trans (by decide)⟩

theorem Opcode.seByte (x : Reg) (kk : Byte) : Opcode.Statement (.seByte x kk) :=
  ⟨⟨6, 0xF000, 0x3000⟩, rfl, (Opcode.formatXK_mask _ _ _).trans (by decide)⟩

theorem Opcode.sneByte (x : Reg) (kk : Byte) : Opcode.Statement (.sneByte x kk) :=
  ⟨⟨7, 0xF000, 0x4000⟩, rfl, (Opcode.formatXK_mask _ _ _).trans (by decide)⟩

theorem Opcode.seReg (x y : Reg) : Opcode.Statement (.seReg x y) :=
  ⟨⟨8, 0xF00F, 0x5000⟩, rfl, (Opcode.formatXYN_mask_n _ _ _ _).trans (by decide)⟩

theorem Opcode.ldByte (x : Reg) (kk : Byte) : Opcode.Statement (.ldByte x kk) :=
  ⟨⟨9, 0xF000, 0x6000⟩, rfl, (Opcode.formatXK_mask _ _ _).trans (by decide)⟩

theorem Opcode.addByte (x : Reg) (kk : Byte) : Opcode.Statement (.addByte x kk) :=
  ⟨⟨10, 0xF000, 0x7000⟩, rfl, (Opcode.formatXK_mask _ _ _).trans (by decide)⟩

theorem Opcode.ldReg (x y : Reg) : Opcode.Statement (.ldReg x y) :=
  ⟨⟨11, 0xF00F, 0x8000⟩, rfl, (Opcode.formatXYN_mask_n _ _ _ _).trans (by decide)⟩

theorem Opcode.or (x y : Reg) : Opcode.Statement (.or x y) :=
  ⟨⟨12, 0xF00F, 0x8001⟩, rfl, (Opcode.formatXYN_mask_n _ _ _ _).trans (by decide)⟩

theorem Opcode.and (x y : Reg) : Opcode.Statement (.and x y) :=
  ⟨⟨13, 0xF00F, 0x8002⟩, rfl, (Opcode.formatXYN_mask_n _ _ _ _).trans (by decide)⟩

theorem Opcode.xor (x y : Reg) : Opcode.Statement (.xor x y) :=
  ⟨⟨14, 0xF00F, 0x8003⟩, rfl, (Opcode.formatXYN_mask_n _ _ _ _).trans (by decide)⟩

theorem Opcode.addReg (x y : Reg) : Opcode.Statement (.addReg x y) :=
  ⟨⟨15, 0xF00F, 0x8004⟩, rfl, (Opcode.formatXYN_mask_n _ _ _ _).trans (by decide)⟩

theorem Opcode.sub (x y : Reg) : Opcode.Statement (.sub x y) :=
  ⟨⟨16, 0xF00F, 0x8005⟩, rfl, (Opcode.formatXYN_mask_n _ _ _ _).trans (by decide)⟩

theorem Opcode.shr (x : Reg) : Opcode.Statement (.shr x) :=
  ⟨⟨17, 0xF00F, 0x8006⟩, rfl, (Opcode.formatXYN_mask_n _ _ _ _).trans (by decide)⟩

theorem Opcode.subn (x y : Reg) : Opcode.Statement (.subn x y) :=
  ⟨⟨18, 0xF00F, 0x8007⟩, rfl, (Opcode.formatXYN_mask_n _ _ _ _).trans (by decide)⟩

theorem Opcode.shl (x : Reg) : Opcode.Statement (.shl x) :=
  ⟨⟨19, 0xF00F, 0x800E⟩, rfl, (Opcode.formatXYN_mask_n _ _ _ _).trans (by decide)⟩

theorem Opcode.sneReg (x y : Reg) : Opcode.Statement (.sneReg x y) :=
  ⟨⟨20, 0xF00F, 0x9000⟩, rfl, (Opcode.formatXYN_mask_n _ _ _ _).trans (by decide)⟩

theorem Opcode.ldI (nnn : Addr12) : Opcode.Statement (.ldI nnn) :=
  ⟨⟨21, 0xF000, 0xA000⟩, rfl, (Opcode.formatA_mask _ _).trans (by decide)⟩

theorem Opcode.jpV0 (nnn : Addr12) : Opcode.Statement (.jpV0 nnn) :=
  ⟨⟨22, 0xF000, 0xB000⟩, rfl, (Opcode.formatA_mask _ _).trans (by decide)⟩

theorem Opcode.rnd (x : Reg) (kk : Byte) : Opcode.Statement (.rnd x kk) :=
  ⟨⟨23, 0xF000, 0xC000⟩, rfl, (Opcode.formatXK_mask _ _ _).trans (by decide)⟩

theorem Opcode.drw (x y : Reg) (n : Nibble) : Opcode.Statement (.drw x y n) :=
  ⟨⟨24, 0xF000, 0xD000⟩, rfl, (Opcode.formatXYN_mask _ _ _ _).trans (by decide)⟩

theorem Opcode.skp (x : Reg) : Opcode.Statement (.skp x) :=
  ⟨⟨25, 0xF0FF, 0xE09E⟩, rfl, (Opcode.formatXK_mask_kk _ _ _).trans (by decide)⟩

theorem Opcode.sknp (x : Reg) : Opcode.Statement (.sknp x) :=
  ⟨⟨26, 0xF0FF, 0xE0A1⟩, rfl, (Opcode.formatXK_mask_kk _ _ _).trans (by decide)⟩

theorem Opcode.readDT (x : Reg) : Opcode.Statement (.readDT x) :=
  ⟨⟨27, 0xF0FF, 0xF007⟩, rfl, (Opcode.formatXK_mask_kk _ _ _).trans (by decide)⟩

theorem Opcode.waitKey (x : Reg) : Opcode.Statement (.waitKey x) :=
  ⟨⟨28, 0xF0FF, 0xF00A⟩, rfl, (Opcode.formatXK_mask_kk _ _ _).trans (by decide)⟩

theorem Opcode.setDT (x : Reg) : Opcode.Statement (.setDT x) :=
  ⟨⟨29, 0xF0FF, 0xF015⟩, rfl, (Opcode.formatXK_mask_kk _ _ _).trans (by decide)⟩

theorem Opcode.setST (x : Reg) : Opcode.Statement (.setST x) :=
  ⟨⟨30, 0xF0FF, 0xF018⟩, rfl, (Opcode.formatXK_mask_kk _ _ _).trans (by decide)⟩

theorem Opcode.addI (x : Reg) : Opcode.Statement (.addI x) :=
  ⟨⟨31, 0xF0FF, 0xF01E⟩, rfl, (Opcode.formatXK_mask_kk _ _ _).trans (by decide)⟩

theorem Opcode.ldFont (x : Reg) : Opcode.Statement (.ldFont x) :=
  ⟨⟨32, 0xF0FF, 0xF029⟩, rfl, (Opcode.formatXK_mask_kk _ _ _).trans (by decide)⟩

theorem Opcode.ldBcd (x : Reg) : Opcode.Statement (.ldBcd x) :=
  ⟨⟨33, 0xF0FF, 0xF033⟩, rfl, (Opcode.formatXK_mask_kk _ _ _).trans (by decide)⟩

theorem Opcode.storeRegs (x : Reg) : Opcode.Statement (.storeRegs x) :=
  ⟨⟨34, 0xF0FF, 0xF055⟩, rfl, (Opcode.formatXK_mask_kk _ _ _).trans (by decide)⟩

theorem Opcode.loadRegs (x : Reg) : Opcode.Statement (.loadRegs x) :=
  ⟨⟨35, 0xF0FF, 0xF065⟩, rfl, (Opcode.formatXK_mask_kk _ _ _).trans (by decide)⟩

end Sys2Proof.Laws
end

