-- ==== Sys2Proof/Tests/Slice0.lean ====
section
/-! SUPPORT. Tests of single steps with results taken from spec/95_test_vectors.md and the rules' own examples, decoding
of words written out from 30_encoding.md R97, the WellFormed smoke test, and a witness for the hypotheses of each
statement. -/

namespace Sys2Proof.Tests

open Sys2Proof.Machine

/-! Well-formedness (30_encoding.md R96): the two words that are no `SYS`. -/

theorem test_wellFormed_refuses_sys_0E0 : ¬ (Instr.sys 0x0E0).WellFormed := by decide
theorem test_wellFormed_refuses_sys_0EE : ¬ (Instr.sys 0x0EE).WellFormed := by decide
theorem test_wellFormed_takes_sys_0E1 : (Instr.sys 0x0E1).WellFormed := by decide

/-! Decoding: one word per constructor, written out from its pattern in R97. -/

theorem test_decode_cls : decodeTableWord 16 0x00E0 = some (.cls) := by decide
theorem test_decode_ret : decodeTableWord 16 0x00EE = some (.ret) := by decide
theorem test_decode_sys : decodeTableWord 16 0x0123 = some (.sys 0x123) := by decide
theorem test_decode_jp : decodeTableWord 16 0x1ABC = some (.jp 0xABC) := by decide
theorem test_decode_call : decodeTableWord 16 0x2300 = some (.call 0x300) := by decide
theorem test_decode_seByte : decodeTableWord 16 0x3A07 = some (.seByte 0xA 0x07) := by decide
theorem test_decode_sneByte : decodeTableWord 16 0x4B17 = some (.sneByte 0xB 0x17) := by decide
theorem test_decode_seReg : decodeTableWord 16 0x5120 = some (.seReg 1 2) := by decide
theorem test_decode_ldByte : decodeTableWord 16 0x6A07 = some (.ldByte 0xA 0x07) := by decide
theorem test_decode_addByte : decodeTableWord 16 0x7A05 = some (.addByte 0xA 0x05) := by decide
theorem test_decode_ldReg : decodeTableWord 16 0x8120 = some (.ldReg 1 2) := by decide
theorem test_decode_or : decodeTableWord 16 0x8341 = some (.or 3 4) := by decide
theorem test_decode_and : decodeTableWord 16 0x8562 = some (.and 5 6) := by decide
theorem test_decode_xor : decodeTableWord 16 0x8783 = some (.xor 7 8) := by decide
theorem test_decode_addReg : decodeTableWord 16 0x89A4 = some (.addReg 9 0xA) := by decide
theorem test_decode_sub : decodeTableWord 16 0x8BC5 = some (.sub 0xB 0xC) := by decide
theorem test_decode_shr : decodeTableWord 16 0x8126 = some (.shr 1) := by decide
theorem test_decode_subn : decodeTableWord 16 0x8DE7 = some (.subn 0xD 0xE) := by decide
theorem test_decode_shl : decodeTableWord 16 0x834E = some (.shl 3) := by decide
theorem test_decode_sneReg : decodeTableWord 16 0x9120 = some (.sneReg 1 2) := by decide
theorem test_decode_ldI : decodeTableWord 16 0xA123 = some (.ldI 0x123) := by decide
theorem test_decode_jpV0 : decodeTableWord 16 0xBFFE = some (.jpV0 0xFFE) := by decide
theorem test_decode_rnd : decodeTableWord 16 0xC10F = some (.rnd 1 0x0F) := by decide
theorem test_decode_drw : decodeTableWord 16 0xD125 = some (.drw 1 2 5) := by decide
theorem test_decode_skp : decodeTableWord 16 0xE29E = some (.skp 2) := by decide
theorem test_decode_sknp : decodeTableWord 16 0xE2A1 = some (.sknp 2) := by decide
theorem test_decode_readDT : decodeTableWord 16 0xF207 = some (.readDT 2) := by decide
theorem test_decode_waitKey : decodeTableWord 16 0xF50A = some (.waitKey 5) := by decide
theorem test_decode_setDT : decodeTableWord 16 0xF315 = some (.setDT 3) := by decide
theorem test_decode_setST : decodeTableWord 16 0xF418 = some (.setST 4) := by decide
theorem test_decode_addI : decodeTableWord 16 0xF11E = some (.addI 1) := by decide
theorem test_decode_ldFont : decodeTableWord 16 0xF329 = some (.ldFont 3) := by decide
theorem test_decode_ldBcd : decodeTableWord 16 0xF033 = some (.ldBcd 0) := by decide
theorem test_decode_storeRegs : decodeTableWord 16 0xF255 = some (.storeRegs 2) := by decide
theorem test_decode_loadRegs : decodeTableWord 16 0xF265 = some (.loadRegs 2) := by decide

/-! Illegal words (R99; T20, T75, T91, T92, T93) and short input. -/

theorem test_decode_5121_illegal : decodeBytes [0x51, 0x21] = .unimplemented 0x5121 := by decide
theorem test_decode_8128_illegal : decodeTableWord 16 0x8128 = none := by decide
theorem test_decode_E29F_illegal : decodeTableWord 16 0xE29F = none := by decide
theorem test_decode_F000_illegal : decodeTableWord 16 0xF000 = none := by decide
theorem test_decode_00E1_is_sys : decodeTableWord 16 0x00E1 = some (.sys 0x0E1) := by decide
theorem test_decode_truncated : decodeBytes [0x60] = .truncated := by decide
theorem test_decode_rest : decodeBytes [0x60, 0x01, 0x99] = .instr (.ldByte 0 1) [0x99] := by decide

/-! Helpers: a state with some registers set, and the state after one step of a word at the program counter. -/

/-- The next state, if there is one. -/
def stateOf : Result → Option State
  | .next t => some t
  | .fault _ => none
  | .refused _ => none

/-- The reset state with some registers set. -/
def regs (l : List (Reg × Byte)) : State := l.foldl (fun s p => s.setV p.1 p.2) State.reset

/-- One step of a word placed at the program counter. -/
def stepWord (w : Nat) (s : State) : Option State := stateOf (step (s.withFetchWord 16 w))

/-- The cause and the recorded address of a halted state. -/
def haltOf (s : State) : Option (Cause × Option Nat) := s.haltReport.map fun f => (f.cause, f.addr)

/-- The reset state with bytes stored from an address. -/
def stored (a : Nat) (bs : List Byte) (s : State) : State :=
  { s with mem := Memory.writeBytes s.params.font s.mem a bs }

/-! Flow control (95_test_vectors.md 2.1). -/

/-- T1. -/
theorem test_jp :
    (stepWord 0x1ABC State.reset).map (fun t => t.pc) = some 0x0ABC := by decide

/-- T4. -/
theorem test_call_pushes :
    (stepWord 0x2300 State.reset).map (fun t => (t.pc, t.sp, t.stack)) = some (0x0300, 1, [0x0202]) := by decide

/-- T6. -/
theorem test_call_overflow :
    (stepWord 0x2300 { State.reset with stack := List.replicate 16 0x0202 }).map (fun t => (t.pc, t.sp, haltOf t)) = some (0x0200, 16, some (.stackOverflow, none)) := by decide

/-- T7. -/
theorem test_ret_pops :
    (stepWord 0x00EE { State.reset with stack := [0x0206] }).map (fun t => (t.pc, t.sp)) = some (0x0206, 0) := by decide

/-- T9. -/
theorem test_ret_underflow :
    (stepWord 0x00EE State.reset).map (fun t => (t.pc, t.sp, haltOf t)) = some (0x0200, 0, some (.stackUnderflow, none)) := by decide

/-- T10. -/
theorem test_seByte_taken :
    (stepWord 0x3A07 (regs [(0xA, 7)])).map (fun t => t.pc) = some 0x0204 := by decide

/-- T11. -/
theorem test_seByte_not_taken :
    (stepWord 0x3A07 (regs [(0xA, 8)])).map (fun t => t.pc) = some 0x0202 := by decide

/-- T12. -/
theorem test_sneByte_not_taken :
    (stepWord 0x4A07 (regs [(0xA, 7)])).map (fun t => t.pc) = some 0x0202 := by decide

/-- T13. -/
theorem test_sneByte_taken :
    (stepWord 0x4A07 (regs [(0xA, 8)])).map (fun t => t.pc) = some 0x0204 := by decide

/-- T14. -/
theorem test_seReg_taken :
    (stepWord 0x5120 (regs [(1, 9), (2, 9)])).map (fun t => t.pc) = some 0x0204 := by decide

/-- T18. -/
theorem test_sneReg_taken :
    (stepWord 0x9120 (regs [(1, 9), (2, 8)])).map (fun t => t.pc) = some 0x0204 := by decide

/-- T19. -/
theorem test_skip_past_last_word :
    (stepWord 0x3000 { State.reset with pc := 0x0FFC }).map (fun t => (t.pc, (haltOf t).isSome)) = some (0x1000, false) := by decide

/-- T20. -/
theorem test_illegal_word_halts :
    (stepWord 0x5121 State.reset).map (fun t => (t.pc, haltOf t)) = some (0x0200, some (.unimplementedInstruction, none)) := by decide

/-! Register load and arithmetic (95_test_vectors.md 2.2). -/

/-- T30. -/
theorem test_ldByte :
    (stepWord 0x6A07 State.reset).map (fun t => (t.getV 0xA, t.pc)) = some (0x07, 0x0202) := by decide

/-- T32. -/
theorem test_addByte_no_carry :
    (stepWord 0x7AFF (regs [(0xA, 2), (15, 1)])).map (fun t => (t.getV 0xA, t.getV 15)) = some (0x01, 0x01) := by decide

/-- T33. -/
theorem test_addByte_VF :
    (stepWord 0x7F01 (regs [(15, 0xFF)])).map (fun t => t.getV 15) = some 0x00 := by decide

/-- T34. -/
theorem test_ldReg :
    (stepWord 0x8120 (regs [(2, 0x5A)])).map (fun t => (t.getV 1, t.getV 2)) = some (0x5A, 0x5A) := by decide

/-- T35. -/
theorem test_or :
    (stepWord 0x8121 (regs [(1, 0xF0), (2, 0x0F), (15, 1)])).map (fun t => (t.getV 1, t.getV 15)) = some (0xFF, 0x01) := by decide

/-- T36. -/
theorem test_and :
    (stepWord 0x8122 (regs [(1, 0xFC), (2, 0x3F), (15, 1)])).map (fun t => (t.getV 1, t.getV 15)) = some (0x3C, 0x01) := by decide

/-- T37. -/
theorem test_xor :
    (stepWord 0x8123 (regs [(1, 0xFF), (2, 0x0F), (15, 1)])).map (fun t => (t.getV 1, t.getV 15)) = some (0xF0, 0x01) := by decide

/-- T42. -/
theorem test_addReg_carry :
    (stepWord 0x8124 (regs [(1, 0x80), (2, 0x80)])).map (fun t => (t.getV 1, t.getV 15)) = some (0x00, 0x01) := by decide

/-- T46. -/
theorem test_addReg_result_wins :
    (stepWord 0x8FF4 (regs [(15, 0x90)])).map (fun t => t.getV 15) = some 0x20 := by decide

/-- T48. -/
theorem test_sub_borrow :
    (stepWord 0x8125 (regs [(1, 0x01), (2, 0x10)])).map (fun t => (t.getV 1, t.getV 15)) = some (0xF1, 0x00) := by decide

/-- T49. -/
theorem test_sub_equal :
    (stepWord 0x8125 (regs [(1, 7), (2, 7), (15, 1)])).map (fun t => (t.getV 1, t.getV 15)) = some (0x00, 0x00) := by decide

/-- T52. -/
theorem test_subn :
    (stepWord 0x8127 (regs [(1, 0x01), (2, 0x10)])).map (fun t => (t.getV 1, t.getV 15)) = some (0x0F, 0x01) := by decide

/-- T55. -/
theorem test_subn_VF :
    (stepWord 0x8F17 (regs [(15, 3), (1, 5)])).map (fun t => t.getV 15) = some 0x02 := by decide

/-- T58. -/
theorem test_shr_ignores_y :
    (stepWord 0x8126 (regs [(1, 5), (2, 0xFF)])).map (fun t => (t.getV 1, t.getV 2, t.getV 15)) = some (0x02, 0xFF, 0x01) := by decide

/-- T59. -/
theorem test_shr_VF :
    (stepWord 0x8F06 (regs [(15, 3)])).map (fun t => t.getV 15) = some 0x01 := by decide

/-- T61. -/
theorem test_shl :
    (stepWord 0x810E (regs [(1, 0x81)])).map (fun t => (t.getV 1, t.getV 15)) = some (0x02, 0x01) := by decide

/-- T62. -/
theorem test_shl_no_carry :
    (stepWord 0x810E (regs [(1, 0x41), (15, 1)])).map (fun t => (t.getV 1, t.getV 15)) = some (0x82, 0x00) := by decide

/-- T67. -/
theorem test_ldI :
    (stepWord 0xAFFF State.reset).map (fun t => t.i) = some 0x0FFF := by decide

/-- T69. -/
theorem test_jpV0 :
    (stepWord 0xBFFF (regs [(0, 0xFF)])).map (fun t => (t.pc, (haltOf t).isSome)) = some (0x10FE, false) := by decide

/-- T70. -/
theorem test_addI_passes_memory :
    (stepWord 0xF11E { regs [(1, 5)] with i := 0x0FFE }).map (fun t => t.i) = some 0x1003 := by decide

/-- T71. -/
theorem test_addI_wraps :
    (stepWord 0xF11E { regs [(1, 1), (15, 7)] with i := 0xFFFF }).map (fun t => (t.i, t.getV 15)) = some (0x0000, 0x07) := by decide

/-- R174. -/
theorem test_rnd_advances_and_draws :
    (stepWord 0xC10F State.reset).map (fun t => (t.pc, t.draws)) = some (0x0202, 1) := by decide

/-- T73: a zero mask gives zero whatever is drawn. -/
theorem test_rnd_zero_mask (s t : State) (h : exec (.rnd 1 0) s = .next t) : t.getV 1 = 0 := by
  cases h
  simp

/-! Timers and keys (95_test_vectors.md 2.3, 4). -/

/-- T80. -/
theorem test_readDT :
    (stepWord 0xF207 { State.reset with dt := 42 }).map (fun t => (t.getV 2, t.dt, t.pc)) = some (0x2A, 42, 0x0202) := by decide

/-- T81. -/
theorem test_setDT :
    (stepWord 0xF315 (regs [(3, 0x3C)])).map (fun t => t.dt) = some 60 := by decide

/-- T83. -/
theorem test_setST :
    (stepWord 0xF418 (regs [(4, 3)])).map (fun t => (t.st, t.soundActive)) = some (3, true) := by decide

/-- T84. -/
theorem test_skp_held :
    (stepWord 0xE29E { regs [(2, 0x0A)] with keys := 0x0400 }).map (fun t => t.pc) = some 0x0204 := by decide

/-- T86. -/
theorem test_skp_code_above_15 :
    (stepWord 0xE29E { regs [(2, 0x1A)] with keys := 0x0400 }).map (fun t => t.pc) = some 0x0202 := by decide

/-- T87. -/
theorem test_sknp_held :
    (stepWord 0xE2A1 { regs [(2, 0x0A)] with keys := 0x0400 }).map (fun t => t.pc) = some 0x0202 := by decide

/-- T89. -/
theorem test_sknp_code_above_15 :
    (stepWord 0xE2A1 { regs [(2, 0x1A)] with keys := 0x0400 }).map (fun t => t.pc) = some 0x0204 := by decide

/-- T90. -/
theorem test_waitKey :
    (stepWord 0xF50A State.reset).map (fun t => (t.mode, t.pc, t.getV 5)) = some (.waitingForKey 5, 0x0202, 0) := by decide

/-- E1, E2. -/
theorem test_tick : (stateOf (serve .tick60Hz { State.reset with dt := 2, st := 0 })).map (fun t => (t.dt, t.st)) =
    some (1, 0) := by decide

/-- E8: an event for a key already held ends the wait. -/
theorem test_keyDown_ends_wait :
    (stateOf (serve (.reportKeyDown 7) { State.reset with keys := 0x0080, mode := .waitingForKey 2 })).map
      (fun t => (t.getV 2, t.mode, t.keys)) = some (0x07, .running, 0x0080) := by decide

/-- E9: a key-up does not. -/
theorem test_keyUp_keeps_wait :
    (stateOf (serve (.reportKeyUp 7) { State.reset with keys := 0x0080, mode := .waitingForKey 2 })).map
      (fun t => (t.mode, t.keys)) = some (.waitingForKey 2, 0) := by decide

/-- P6: a pending event is served before the next instruction. -/
theorem test_pending_served_first :
    (stateOf (step { State.reset with mode := .waitingForKey 5, pending := [.reportKeyDown 3, .step] })).map
      (fun t => (t.getV 5, t.mode, t.pc, t.pending)) = some (0x03, .running, 0x0200, [.step]) := by decide

/-! Memory, BCD, font (95_test_vectors.md 2.4). -/

/-- T101. -/
theorem test_ldFont :
    (stepWord 0xF329 (regs [(3, 0xF7)])).map (fun t => t.i) = some 0x0023 := by decide

/-- T102. -/
theorem test_ldBcd :
    (stepWord 0xF033 { regs [(0, 254)] with i := 0x0300 }).map (fun t => (t.peek 0x300, t.peek 0x301, t.peek 0x302, t.i)) = some (2, 5, 4, 0x0300) := by decide

/-- T105. -/
theorem test_ldBcd_out_of_range :
    (stepWord 0xF033 { regs [(0, 0xFF)] with i := 4094 }).map (fun t => (t.peek 4094, t.peek 4095, haltOf t)) = some (0, 0, some (.dataOutOfBounds, some 4096)) := by decide

/-- T107, inclusive. -/
theorem test_storeRegs :
    (stepWord 0xF255 { regs [(0, 0x11), (1, 0x22), (2, 0x33)] with i := 0x0400 }).map (fun t => (t.peek 0x400, t.peek 0x401, t.peek 0x402, t.peek 0x403, t.i)) = some (0x11, 0x22, 0x33, 0, 0x0400) := by decide

/-- T107, exclusive. -/
theorem test_storeRegs_exclusive :
    (stepWord 0xF255 { regs [(0, 0x11), (1, 0x22), (2, 0x33)] with i := 0x0400, params := ⟨false, Config.defaultFont⟩ }).map (fun t => (t.peek 0x400, t.peek 0x401, t.peek 0x402)) = some (0x11, 0x22, 0) := by decide

/-- T111, inclusive. -/
theorem test_loadRegs :
    (stepWord 0xF265 (stored 0x300 [2, 5, 4] { regs [(2, 0x77)] with i := 0x0300 })).map (fun t => (t.getV 0, t.getV 1, t.getV 2, t.i)) = some (2, 5, 4, 0x0300) := by decide

/-- T112, inclusive. -/
theorem test_loadRegs_out_of_range :
    (stepWord 0xF065 { State.reset with i := 4096 }).map (fun t => haltOf t) = some (some (.dataOutOfBounds, some 4096)) := by decide

/-! Display (95_test_vectors.md 2.5). -/

/-- T122: columns 62, then 63, 0 to 6. -/
theorem test_drw_wraps :
    (stepWord 0xD011 (stored 0x300 [0xFF] { regs [(0, 63)] with i := 0x0300 })).map (fun t => ((List.range 9).map (fun k => t.displayPixel (62 + k) 0), t.getV 15)) = some ([false, true, true, true, true, true, true, true, true], 0) := by decide

/-- T121. -/
theorem test_drw_collides :
    (stepWord 0xD011 (stored 0x300 [0x80] { regs [(0, 5), (1, 6)] with i := 0x0300, fb := flipPixel State.reset.fb 5 6 })).map (fun t => (t.displayPixel 5 6, t.getV 15)) = some (false, 1) := by decide

/-- T125. -/
theorem test_drw_out_of_range :
    (stepWord 0xD012 { regs [(15, 1)] with i := 4095 }).map (fun t => (t.getV 15, haltOf t)) = some (1, some (.dataOutOfBounds, some 4096)) := by decide

/-- T130. -/
theorem test_cls :
    (stepWord 0x00E0 { regs [(15, 1)] with fb := flipPixel State.reset.fb 5 6 }).map (fun t => (t.fb, t.getV 15, t.pc)) = some (clearSurface, 1, 0x0202) := by decide

/-! The no-op and the fetch (95_test_vectors.md 2.6), and load. -/

/-- T140. -/
theorem test_sys :
    (stepWord 0x0123 State.reset).map (fun t => t.pc) = some 0x0202 := by decide

/-- T144. -/
theorem test_last_word_runs :
    (stepWord 0x6001 { State.reset with pc := 0x0FFE }).map (fun t => (t.getV 0, t.pc)) = some (1, 0x1000) := by decide

/-- T146. -/
theorem test_odd_pc_fetches :
    (stepWord 0x6142 { State.reset with pc := 0x0201 }).map (fun t => (t.getV 1, t.pc)) = some (0x42, 0x0203) := by decide

/-- T145. -/
theorem test_fetch_out_of_bounds :
    (stateOf (step { State.reset with pc := 0x0FFF })).map (fun t => (t.pc, haltOf t)) =
      some (0x0FFF, some (.fetchOutOfBounds, some 4095)) := by decide

/-- A step that raises in the execute phase overwrites the trace (10_state.md R40). -/
theorem test_trace_of_underflow :
    (stepWord 0x00EE { State.reset with trace := some { word := 0x6A07, instr := some (.ldByte 0xA 0x07) } }).map
      (fun t => t.traceOutput) = some (some (0x00EE, some (2, []))) := by decide

/-- A step that raises in the decode phase records the word and no identity (10_state.md R40). -/
theorem test_trace_of_unimplemented :
    (stepWord 0x5121 State.reset).map (fun t => t.traceOutput) = some (some (0x5121, none)) := by decide

/-- The trace lists `x`, `y`, then the immediate (30_encoding.md R93). -/
theorem test_trace_operands :
    (stepWord 0xD125 State.reset).map State.traceOutput = some (some (0xD125, some (24, [1, 2, 5]))) := by decide

/-- E12. -/
theorem test_load_recovers :
    (stateOf (serve (.load [0x6A, 0x07]) (regs [(3, 0x77)]).raiseFetch)).map
      (fun t => (t.peek 0x200, t.peek 0x201, t.getV 3, t.mode, t.pc)) =
      some (0x6A, 0x07, 0, .running, 0x0200) := by decide

/-- S1: the first and the last glyph of the default font, and the byte after it. -/
theorem test_font : (List.range 5).map State.reset.peek = [0xF0, 0x90, 0x90, 0x90, 0xF0] ∧
    (List.range 5).map (fun k => State.reset.peek (75 + k)) = [0xF0, 0x80, 0xF0, 0x80, 0x80] ∧
    State.reset.peek 80 = 0 := by decide

/-! Witnesses: for each statement with hypotheses, a state and operands that meet them all, at a boundary value for each
clause. Their helpers come first. -/

theorem exists_next {r : Result} {p : State → Prop} [DecidablePred p]
    (h : (stateOf r).map (fun t => decide (p t)) = some true) : ∃ t, r = .next t ∧ p t := by
  cases r with
  | next t => exact ⟨t, rfl, by simpa [stateOf] using h⟩
  | fault f => simp [stateOf] at h
  | refused f => simp [stateOf] at h

theorem isHalted_iff (s : State) : s.isHalted ↔ s.haltReport.isSome = true := by
  unfold State.isHalted State.haltReport
  cases s.mode <;> simp

theorem not_halted (s : State) (h : s.haltReport.isSome = false) : ¬ s.isHalted := by
  rw [isHalted_iff, h]
  decide

/-- A state halted by a fetch at 4095. -/
def haltedState : State := { State.reset with pc := 0x0FFF }.raiseFetch

/-- Ready to store or load 3 registers in the last 3 bytes of memory. -/
def bulkState : State := { regs [(0, 0x11), (1, 0x22), (2, 0x33)] with i := 4093 }

/-- Ready to draw one row. -/
def drawState : State := stored 0x300 [0x80] { regs [(0, 5), (1, 6)] with i := 0x0300 }

/-! Encoding. -/

theorem witness_DecodeEncodeRoundTrip : (Instr.sys 0xFFF).WellFormed := by decide

theorem witness_DecodedInstructionHasItsWord :
    decodeWord 0x6A07 = some (.ldByte 0xA 0x07) ∧ decodeWord 0x8126 = some (.shr 1) ∧
      decodeWord 0x812E = some (.shl 1) := by decide

theorem witness_JumpSetsProgramCounter :
    (0x1FFF : Word) &&& 0xF000 = 0x1000 ∧ State.reset.pc = (0x200 : Addr12).setWidth 16 ∧
      { State.reset with pc := 0x0FFF }.mode = .running ∧
      { State.reset with pc := 0x0FFF }.pc = (0xFFF : Addr12).setWidth 16 := by decide

theorem witness_ImmediateLoadAndAdd :
    (0x6FFF : Word) &&& 0xF000 = 0x6000 ∧ (0x7000 : Word) &&& 0xF000 = 0x7000 := by decide

theorem witness_SysOnlyAdvances :
    (0x00E1 : Word) &&& 0xF000 = 0x0000 ∧ (0x00E1 : Word) ≠ 0x00E0 ∧ (0x00E1 : Word) ≠ 0x00EE := by decide

/-! Calls and returns. -/

theorem witness_CallsPushAndReturnsPop :
    { State.reset with stack := List.replicate 15 0x0202 }.sp < 16 ∧
      { State.reset with stack := [0x0206] }.stack = [] ++ [0x0206] := by decide

theorem witness_StackFaultsHalt :
    { State.reset with stack := List.replicate 16 0x0202 }.sp = 16 ∧ State.reset.sp = 0 := by decide

theorem witness_SixteenCallsSucceedAndTheNextHalts :
    State.reset.stack = [] ∧ State.reset.mode = .running ∧ (List.replicate 16 (0x200 : Addr12)).length ≤ 16 ∧
      16 < (List.replicate 17 (0x200 : Addr12)).length := by decide

/-! Timers and keys. -/

/-- Key 15 held, key 0 not held, and code 16. -/
theorem witness_KeySkipsAreComplements :
    (15 < 16 ∧ ((regs [(2, 15)]).v[(2 : Reg).toNat]'(by decide)).toNat = 15 ∧
      { regs [(2, 15)] with keys := 0x8000 }.keys.getLsbD 15 = true) ∧
    (((regs [(2, 0)]).v[(2 : Reg).toNat]'(by decide)).toNat = 0 ∧ 0 < 16 ∧
      { regs [(2, 0)] with keys := 0x8000 }.keys.getLsbD 0 = false) ∧
    15 < ((regs [(2, 16)]).v[(2 : Reg).toNat]'(by decide)).toNat := by decide

theorem witness_KeyWaitEndsWithNextKeyDown :
    { State.reset with mode := .waitingForKey 15 }.mode = .waitingForKey 15 ∧ 15 < 16 := by decide

theorem witness_StepWhileWaitingIsNoOp :
    { State.reset with mode := .waitingForKey 0 }.mode = .waitingForKey 0 := by decide

theorem witness_KeyDownOutsideWaitSetsItsBit :
    15 < 16 ∧ (∀ x, State.reset.mode ≠ .waitingForKey x) ∧ (∀ x, haltedState.mode ≠ .waitingForKey x) := by
  refine ⟨by decide, fun x h => ?_, fun x h => ?_⟩ <;> cases h

theorem witness_KeyUpClearsItsBit : 15 < 16 ∧ State.reset.keys.getLsbD 15 = false := by decide

theorem witness_ManyTicksClampTimersAtZero :
    { State.reset with dt := 2, pending := List.replicate 3 .tick60Hz }.pending = List.replicate 3 .tick60Hz := by
  decide

theorem witness_StepWritesTimersOnlyByTimerLoads :
    (∃ t, serve .step ((regs [(3, 60)]).withFetchWord 16 0xF315) = .next t ∧
      t.dt ≠ ((regs [(3, 60)]).withFetchWord 16 0xF315).dt) ∧
    (∃ t, serve .step ((regs [(3, 60)]).withFetchWord 16 0xF318) = .next t ∧
      t.st ≠ ((regs [(3, 60)]).withFetchWord 16 0xF318).st) :=
  ⟨exists_next (by decide), exists_next (by decide)⟩

theorem witness_SoundActiveExactlyWhileSoundTimerRuns :
    { State.reset with st := 1 }.st = 1 ∧ 1 < { State.reset with st := 2 }.st.toNat ∧
      (List.replicate 3 (0 : Byte)).length ≤ 3584 := by decide

theorem witness_StepStopsOnlyOnMeaninglessEvents :
    (15 < 16 ∧ { State.reset with pending := [.reportKeyUp 16] }.pending = .reportKeyUp 16 :: []) ∧
    (3584 < (List.replicate 3585 (0 : Byte)).length ∧
      { State.reset with pending := [.load (List.replicate 3585 0)] }.pending =
        .load (List.replicate 3585 0) :: []) ∧
    (∀ code rest, ({ State.reset with pending := [.reportKeyDown 15] }.pending = .reportKeyDown code :: rest ∨
      { State.reset with pending := [.reportKeyDown 15] }.pending = .reportKeyUp code :: rest) → code ≤ 15) ∧
    (∀ bytes rest, { State.reset with pending := [.reportKeyDown 15] }.pending = .load bytes :: rest →
      bytes.length ≤ 3584) := by
  refine ⟨⟨by decide, rfl⟩, ⟨?_, rfl⟩, ?_, ?_⟩
  · rw [List.length_replicate]
    decide
  · rintro code rest (h | h) <;> cases h
    decide
  · intro bytes rest h
    cases h

/-! Memory. -/

theorem witness_BcdStoresThreeDigits : { State.reset with i := 4093 }.i.toNat ≤ 4093 := by decide

/-- Three registers at the last three bytes, and an empty range beyond memory. -/
theorem witness_BulkStoreWritesRegisterBytes :
    (3 = (if bulkState.params.bulkInclusive then (2 : Reg).toNat + 1 else (2 : Reg).toNat) ∧
      (3 = 0 ∨ bulkState.i.toNat + 3 - 1 ≤ 4095)) ∧
    (0 = (if (⟨false, Config.defaultFont⟩ : Params).bulkInclusive then (0 : Reg).toNat + 1 else (0 : Reg).toNat) ∧
      (0 = 0 ∨ 5000 + 0 - 1 ≤ 4095)) := by decide

theorem witness_BulkLoadReadsRegisterBytes :
    3 = (if bulkState.params.bulkInclusive then (2 : Reg).toNat + 1 else (2 : Reg).toNat) ∧
      (3 = 0 ∨ bulkState.i.toNat + 3 - 1 ≤ 4095) := by decide

theorem witness_BulkStoreThenLoadRoundTrips :
    ∃ t u, ¬ bulkState.isHalted ∧ exec (.storeRegs 2) bulkState = .next t ∧ ¬ t.isHalted ∧
      exec (.loadRegs 2) { t with v := State.reset.v } = .next u :=
  ⟨_, _, not_halted _ (by decide), rfl, not_halted _ (by decide), rfl⟩

/-- One of each form at the first address whose range leaves memory. -/
theorem witness_DataOutOfBoundsChangesNothing :
    ((∃ x y n, Instr.drw 0 1 2 = .drw x y n ∧ 2 = n.toNat) ∧ 0 < 2 ∧
      4095 < { State.reset with i := 4095 }.i.toNat + 2 - 1) ∧
    ((∃ x, Instr.ldBcd 0 = .ldBcd x ∧ 3 = 3) ∧ 0 < 3 ∧ 4095 < { State.reset with i := 4094 }.i.toNat + 3 - 1) ∧
    ((∃ x, (Instr.storeRegs 15 = .storeRegs x ∨ Instr.storeRegs 15 = .loadRegs x) ∧
        16 = if State.reset.params.bulkInclusive then x.toNat + 1 else x.toNat) ∧ 0 < 16 ∧
      4095 < { State.reset with i := 4081 }.i.toNat + 16 - 1) :=
  ⟨⟨⟨0, 1, 2, rfl, by decide⟩, by decide, by decide⟩, ⟨⟨0, rfl, rfl⟩, by decide, by decide⟩,
    ⟨⟨15, .inl rfl, by decide⟩, by decide, by decide⟩⟩

/-- `LD [I], V4` at 512 writes the word at 514, where the next fetch is. -/
theorem witness_StoredWordIsFetchedNext :
    ∃ t, ¬ { State.reset with i := 512 }.isHalted ∧ exec (.storeRegs 4) { State.reset with i := 512 } = .next t ∧
      ¬ t.isHalted ∧ t.pc.toNat = { State.reset with i := 512 }.i.toNat + (2 : Reg).toNat ∧
      (2 : Reg).toNat + 1 < { State.reset with i := 512 }.bulkCount 4 :=
  ⟨_, not_halted _ (by decide), rfl, not_halted _ (by decide), by decide, by decide⟩

/-! The step cycle. -/

theorem witness_FetchIsBigEndianAndBounded :
    { State.reset with pc := 4094 }.pc.toNat ≤ 4094 ∧ 4094 < { State.reset with pc := 4095 }.pc.toNat ∧
      { State.reset with pc := 4095 }.mode = .running := by decide

theorem witness_UnimplementedWordHalts :
    (State.reset.withFetchWord 16 0x5121).mode = .running ∧
      (State.reset.withFetchWord 16 0x5121).fetch16 = some 0x5121 ∧ decodeWord 0x5121 = none := by decide

theorem witness_StepRunsTheDecodedInstruction :
    ((State.reset.withFetchWord 16 0x6A07).mode = .running ∧
      (State.reset.withFetchWord 16 0x6A07).fetch16 = some 0x6A07 ∧
      decodeWord 0x6A07 = some (.ldByte 0xA 0x07) ∧
      (∃ t, exec (.ldByte 0xA 0x07) (State.reset.withFetchWord 16 0x6A07) = .next t ∧ ¬ t.isHalted) ∧
      (State.reset.withFetchWord 16 0x6A07).pending = []) ∧
    (State.reset.withFetchWord 16 0x00EE).mode = .running ∧
      (State.reset.withFetchWord 16 0x00EE).fetch16 = some 0x00EE ∧ decodeWord 0x00EE = some .ret ∧
      ∃ t, exec .ret (State.reset.withFetchWord 16 0x00EE) = .next t ∧ t.isHalted :=
  ⟨⟨by decide, by decide, by decide, ⟨_, rfl, not_halted _ (by decide)⟩, by decide⟩, by decide, by decide, by decide,
    ⟨_, rfl, _, rfl⟩⟩

theorem witness_StepServesPendingEventsInOrder :
    State.reset.pending = [] ∧
      { State.reset with pending := [.tick60Hz, .step] }.pending = .tick60Hz :: [.step] ∧
      ∃ t, step { State.reset with pending := [.tick60Hz, .step] } = .next t :=
  ⟨rfl, rfl, _, rfl⟩

/-! Frames and fatal conditions. -/

/-- A bulk load of `V0` to `V2` leaves `V3`; `ADD V1, V2` leaves `V0`. -/
theorem witness_RegistersChangeOnlyAtDestinations :
    ((∃ t, exec (.loadRegs 2) bulkState = .next t) ∧ (Instr.loadRegs 2).dest ≠ some 3 ∧
      ((Instr.loadRegs 2).setsFlag = true → (3 : Reg) ≠ 15) ∧
      ∀ x, Instr.loadRegs 2 = .loadRegs x → bulkState.bulkCount x ≤ (3 : Reg).toNat) ∧
    ((∃ t, exec (.addReg 1 2) bulkState = .next t) ∧ (Instr.addReg 1 2).dest ≠ some 0 ∧
      ((Instr.addReg 1 2).setsFlag = true → (0 : Reg) ≠ 15)) := by
  refine ⟨⟨⟨_, rfl⟩, by decide, by decide, ?_⟩, ⟨_, rfl⟩, by decide, by decide⟩
  intro x h
  cases h
  decide

/-- The byte before the range of each of the two stores. -/
theorem witness_MemoryChangesOnlyAtStoredBytes :
    ((∃ t, exec (.storeRegs 2) bulkState = .next t) ∧
      (∀ x, Instr.storeRegs 2 = .ldBcd x → 4092 < bulkState.i.toNat ∨ bulkState.i.toNat + 3 ≤ 4092) ∧
      (∀ x, Instr.storeRegs 2 = .storeRegs x →
        4092 < bulkState.i.toNat ∨ bulkState.i.toNat + bulkState.bulkCount x ≤ 4092)) ∧
    ((∃ t, exec (.ldBcd 2) bulkState = .next t) ∧
      (∀ x, Instr.ldBcd 2 = .ldBcd x → 4092 < bulkState.i.toNat ∨ bulkState.i.toNat + 3 ≤ 4092) ∧
      (∀ x, Instr.ldBcd 2 = .storeRegs x →
        4092 < bulkState.i.toNat ∨ bulkState.i.toNat + bulkState.bulkCount x ≤ 4092)) :=
  ⟨⟨⟨_, rfl⟩, fun _ _ => .inl (by decide), fun _ _ => .inl (by decide)⟩,
    ⟨_, rfl⟩, fun _ _ => .inl (by decide), fun _ _ => .inl (by decide)⟩

/-- `SYS` is none of the instructions that the clauses name, and does not halt. -/
theorem witness_OtherStateChangesOnlyByItsInstructions :
    (∃ t, exec (.sys 0x123) State.reset = .next t ∧ ¬ t.isHalted) ∧
      (∀ nnn x, Instr.sys 0x123 ≠ .ldI nnn ∧ Instr.sys 0x123 ≠ .addI x ∧ Instr.sys 0x123 ≠ .ldFont x) ∧
      (∀ nnn, Instr.sys 0x123 ≠ .call nnn ∧ Instr.sys 0x123 ≠ .ret) ∧
      (∀ x y n, Instr.sys 0x123 ≠ .drw x y n ∧ Instr.sys 0x123 ≠ .cls) ∧
      (∀ x, Instr.sys 0x123 ≠ .setDT x) ∧ (∀ x, Instr.sys 0x123 ≠ .setST x) ∧
      (∀ x, Instr.sys 0x123 ≠ .waitKey x) ∧ ∀ x kk, Instr.sys 0x123 ≠ .rnd x kk :=
  ⟨⟨_, rfl, not_halted _ (by decide)⟩, by simp, by simp, by simp, by simp, by simp, by simp, by simp⟩

theorem witness_FatalConditionsArePrecise :
    ∃ t, ¬ State.reset.isHalted ∧ exec .ret State.reset = .next t ∧ t.isHalted :=
  ⟨_, not_halted _ (by decide), rfl, _, rfl⟩

theorem witness_InstructionsHaltExactlyWhenListed : ¬ State.reset.isHalted := not_halted _ (by decide)

/-- A running state whose step halts with the cause of a code. -/
def haltsWith (code : Nat) (s : State) : Prop :=
  ∃ t info, s.mode = .running ∧ serve .step s = .next t ∧ t.haltReport = some info ∧ info.cause.code = code

theorem haltsWith_of (code : Nat) (s : State) (m : s.mode = .running)
    (h : (stateOf (serve .step s)).map (fun t => decide ((t.haltReport.map fun i => i.cause.code) = some code)) =
      some true) : haltsWith code s := by
  obtain ⟨t, e, p⟩ := exists_next (p := fun t => (t.haltReport.map fun i => i.cause.code) = some code) h
  obtain ⟨info, hi, hc⟩ := Option.map_eq_some_iff.1 p
  exact ⟨t, info, m, e, hi, hc⟩

/-- One state for each of the five codes of R261. -/
theorem witness_FaultRecordNamesTheFetchedWord :
    haltsWith 1 { State.reset with pc := 4095 } ∧
      haltsWith 2 (State.reset.withFetchWord 16 0x5121) ∧
      haltsWith 3 ({ State.reset with stack := List.replicate 16 0x0202 }.withFetchWord 16 0x2300) ∧
      haltsWith 4 (State.reset.withFetchWord 16 0x00EE) ∧
      haltsWith 5 ({ State.reset with i := 4094 }.withFetchWord 16 0xF033) :=
  ⟨haltsWith_of _ _ rfl (by decide), haltsWith_of _ _ (by decide) (by decide), haltsWith_of _ _ (by decide) (by decide),
    haltsWith_of _ _ (by decide) (by decide), haltsWith_of _ _ (by decide) (by decide)⟩

theorem witness_HaltedIsLeftOnlyByLoad :
    haltedState.isHalted ∧ serve .step haltedState = .next haltedState ∧
      (∃ t, serve .tick60Hz haltedState = .next t) ∧ ∃ t, serve (.load []) haltedState = .next t :=
  ⟨⟨_, rfl⟩, rfl, ⟨_, rfl⟩, _, rfl⟩

/-! Display. -/

/-- No row beyond memory, and one row at its last byte. -/
theorem witness_DrawFlipsExactlyTheCoveredPixels :
    ((0 : Nibble) = 0 ∨ 5000 + (0 : Nibble).toNat - 1 ≤ 4095) ∧
      ((1 : Nibble) = 0 ∨ { State.reset with i := 4095 }.i.toNat + (1 : Nibble).toNat - 1 ≤ 4095) := by decide

/-- A display that is not clear, and a covered pixel that is off on it. -/
theorem witness_DrawingTwiceRestoresTheDisplay :
    ∃ t u, (0 : Reg) ≠ 15 ∧ (1 : Reg) ≠ 15 ∧
      exec (.drw 0 1 1) { drawState with fb := flipPixel clearSurface 9 9 } = .next t ∧
      exec (.drw 0 1 1) t = .next u ∧ ¬ { drawState with fb := flipPixel clearSurface 9 9 }.isHalted ∧ ¬ t.isHalted ∧
      ∃ px py, spriteCovers { drawState with fb := flipPixel clearSurface 9 9 } 0 1 1 px py ∧
        pixelAt (flipPixel clearSurface 9 9) px py = false :=
  ⟨_, _, by decide, by decide, rfl, rfl, not_halted _ (by decide), not_halted _ (by decide), 5, 6, ⟨0, 0,
    by decide, by decide, by decide, by decide, by decide⟩, by decide⟩

/-! Reset, noninterference, the invariant. -/

theorem witness_LoadLeavesTheResetState : ([0x6A, 0x07] : List Byte).length ≤ 3584 := by decide

theorem witness_ResetIsLoadOfTheEmptyProgram :
    State.reset.params = Params.default ∧ State.reset.draws = 0 ∧ State.reset.pending = [] := ⟨rfl, rfl, rfl⟩

theorem witness_DrawsReachOnlyRandomLoad :
    (∀ x kk, Instr.cls ≠ .rnd x kk) ∧ ∃ t, exec .cls State.reset = .next t := by
  refine ⟨fun x kk h => ?_, _, rfl⟩
  cases h

theorem witness_TraceHasNoEffect : ∃ t, step (State.reset.withFetchWord 16 0x6A07) = .next t := by
  obtain ⟨t, h, -⟩ := exists_next (r := step (State.reset.withFetchWord 16 0x6A07)) (p := fun _ => True) (by decide)
  exact ⟨t, h⟩

/-- A decodable word; a step that reaches the decode phase and raises, one that fetches nothing, and a load. -/
theorem witness_TraceOutputShowsTheLastDecodedStep :
    decodeWord 0xD125 = some (.drw 1 2 5) ∧
    ((State.reset.withFetchWord 16 0x5121).mode = .running ∧
      (State.reset.withFetchWord 16 0x5121).fetch16 = some 0x5121 ∧
      ∃ t, serve .step (State.reset.withFetchWord 16 0x5121) = .next t ∧ t.haltReport.isSome = true) ∧
    ((∃ t, serve .step { State.reset with pc := 4095 } = .next t) ∧
      { State.reset with pc := 4095 }.fetch16 = none ∧ ∀ bytes, Event.step ≠ .load bytes) ∧
    ∃ t, serve (.load []) State.reset = .next t :=
  ⟨by decide, ⟨by decide, by decide, exists_next (by decide)⟩, ⟨⟨_, rfl⟩, by decide, fun _ h => by cases h⟩, _, rfl⟩

/-- A state other than reset that meets the invariant, and takes a step. -/
theorem witness_EveryStepKeepsTheMachineInvariant :
    { State.reset with stack := [0x0206], pending := [.tick60Hz] }.Inv ∧
      ∃ t, step { State.reset with stack := [0x0206], pending := [.tick60Hz] } = .next t := by
  refine ⟨⟨?_, ⟨by decide, ?_⟩, Memory.nil_wf _, ?_, ?_⟩, _, rfl⟩
  · show (512 : Word).toNat ≤ 0x10FE
    decide
  · intro a ha
    rw [List.mem_singleton.1 ha]
    decide
  · intro info h
    cases h
  · intro r h
    cases h

end Sys2Proof.Tests
end

section
/-! SUPPORT. What one instruction can change, said once: the kinds of effect, and that every next state of `exec` is
one. -/

namespace Sys2Proof.Machine

variable {s t : State} {i : Instr}

/-- Where an instruction that completes leaves `pc`: at the next instruction, past it, at a target that an immediate
bounds (at most 0xFFF + 0xFF), or at a return address. -/
def State.NextPc (s : State) (a : Word) : Prop :=
  a = s.pc + 2 ∨ a = s.pc + 2 + 2 ∨ a.toNat ≤ 0x10FE ∨ a ∈ s.stack

/-- The instruction does not name register `r` as one it writes (10_state.md R21, R22). -/
def Instr.Spares (i : Instr) (s : State) (r : Reg) : Prop :=
  i.dest ≠ some r ∧ (i.setsFlag = true → r ≠ 15) ∧ ∀ x, i = .loadRegs x → s.bulkCount x ≤ r.toNat

/-- The register file `v` differs from the state's at most where the instruction writes registers. -/
def State.WritesOwn (s : State) (i : Instr) (v : Vector Byte 16) : Prop :=
  ∀ r : Reg, Instr.Spares i s r → v[r.toNat]'r.isLt = s.v[r.toNat]'r.isLt

/-- The kinds of change that an instruction can make: which instructions make it, and all of the next state. -/
inductive Effect (s : State) (i : Instr) : State → Prop
  /-- A fatal condition, with a record of its cause's shape. -/
  | raised {cause : Cause} {addr : Option Nat}
      (shape : FaultRecord.Shape ⟨cause, s.pc, some (encode i), some i, addr⟩) : Effect s i (s.raiseExec cause i addr)
  /-- Registers and `pc` alone. -/
  | registers {v : Vector Byte 16} {pc : Word} (own : s.WritesOwn i v) (next : s.NextPc pc) :
      Effect s i { s with v := v, pc := pc }
  /-- A write of `I`. -/
  | index {a : Word} (made : (∃ nnn, i = .ldI nnn) ∨ ∃ x, i = .addI x ∨ i = .ldFont x) :
      Effect s i { s with i := a, pc := s.pc + 2 }
  /-- A call. -/
  | pushed {nnn : Addr12} (made : i = .call nnn) (room : s.sp < 16) :
      Effect s i { s with stack := s.stack ++ [s.pc + 2], pc := nnn.toWord }
  /-- A return. -/
  | popped {st : List Word} {a : Word} (made : i = .ret) (top : s.stack = st ++ [a]) :
      Effect s i { s with stack := st, pc := a }
  /-- A write of the display, and of `VF` by `DRW`. -/
  | display {v : Vector Byte 16} {fb : Surface} (made : i = .cls ∨ ∃ x y n, i = .drw x y n) (own : s.WritesOwn i v) :
      Effect s i { s with v := v, fb := fb, pc := s.pc + 2 }
  /-- A store of bytes from `I` on. -/
  | stored {bs : List Byte}
      (made : (∃ x, i = .ldBcd x ∧ bs.length = 3) ∨ ∃ x, i = .storeRegs x ∧ bs.length = s.bulkCount x)
      (range : bs.length = 0 ∨ s.i.toNat + bs.length ≤ 4096) :
      Effect s i { s with mem := Memory.writeBytes s.params.font s.mem s.i.toNat bs, pc := s.pc + 2 }
  /-- A write of the delay timer. -/
  | delay {b : Byte} {x : Reg} (made : i = .setDT x) : Effect s i { s with dt := b, pc := s.pc + 2 }
  /-- A write of the sound timer. -/
  | sound {b : Byte} {x : Reg} (made : i = .setST x) : Effect s i { s with st := b, pc := s.pc + 2 }
  /-- The entry to a key wait. -/
  | waits {x : Reg} (made : i = .waitKey x) : Effect s i { s with mode := .waitingForKey x, pc := s.pc + 2 }
  /-- A drawn byte. -/
  | drew {v : Vector Byte 16} {x : Reg} {kk : Byte} (made : i = .rnd x kk) (own : s.WritesOwn i v) :
      Effect s i { s with v := v, draws := s.draws + 1, pc := s.pc + 2 }

theorem State.writesOwn_self (s : State) : s.WritesOwn i s.v := fun _ _ => rfl

theorem State.writesOwn_dest {x : Reg} (b : Byte) (hd : i.dest = some x) :
    s.WritesOwn i (s.setV x b).v := fun r ⟨hr, _, _⟩ =>
  s.getV_setV_of_ne x r b fun e => hr (hd.trans (congrArg some e))

theorem State.writesOwn_flagThen {x : Reg} (c : Bool) (b : Byte) (hd : i.dest = some x) (hf : i.setsFlag = true) :
    s.WritesOwn i (s.setFlagThen c x b).v := fun r ⟨hr, hflag, _⟩ => by
  have hx : x ≠ r := fun e => hr (hd.trans (congrArg some e))
  exact (s.setFlagThen_getV c x r b).trans (by rw [if_neg hx, if_neg (hflag hf).symm]; rfl)

theorem State.writesOwn_flag (b : Byte) (hf : i.setsFlag = true) : s.WritesOwn i (s.setV Reg.flag b).v :=
  fun r ⟨_, hflag, _⟩ => s.getV_setV_of_ne Reg.flag r b (hflag hf).symm

theorem State.writesOwn_loadRegs {x : Reg} {bs : List Byte} (hb : bs.length = s.bulkCount x) :
    s.WritesOwn (.loadRegs x) (s.setRegs 0 bs).v := fun r ⟨_, _, hr⟩ => by
  have hle := s.bulkCount_le x
  have hr := hr x rfl
  exact (State.setRegs_getV bs s 0 r (by omega)).trans (dif_neg (by omega))

theorem State.nextPc_skipIf (s : State) (c : Bool) : s.NextPc (s.advance.skipIf c).pc := by
  cases c
  · exact .inl rfl
  · exact .inr (.inl rfl)

/-- A skip changes `pc` alone. -/
theorem Effect.skipIf (s : State) (i : Instr) (c : Bool) : Effect s i (s.advance.skipIf c) := by
  have h := Effect.registers (i := i) s.writesOwn_self (s.nextPc_skipIf c)
  cases c <;> exact h

theorem State.nextPc_toWord (s : State) (nnn : Addr12) : s.NextPc nnn.toWord := by
  have := nnn.isLt
  refine .inr (.inr (.inl ?_))
  rw [Addr12.toWord, BitVec.toNat_setWidth]
  omega

/-- `JP V0, nnn` reaches at most 0xFFF + 0xFF. -/
theorem State.nextPc_jpV0 (s : State) (nnn : Addr12) (b : Byte) : s.NextPc (BitVec.ofNat 16 (nnn.toNat + b.toNat)) := by
  have := nnn.isLt
  have := b.isLt
  refine .inr (.inr (.inl ?_))
  rw [BitVec.toNat_ofNat]
  omega

theorem Effect.raisedData (h : accessesData i) : Effect s i (s.raiseData i) := by
  refine .raised ⟨i, _, rfl, rfl, rfl, ?_, h⟩
  have : memSize = 4096 := rfl
  omega

/-- Every next state of `exec` is one of the kinds of change. -/
theorem exec_effect (h : exec i s = .next t) : Effect s i t := by
  cases i with
  | cls => cases h; exact .display (.inl rfl) s.writesOwn_self
  | ret =>
    obtain ⟨-, rfl⟩ | ⟨st, a, hs, rfl⟩ := exec_ret_next h
    · exact .raised ⟨rfl, rfl, rfl⟩
    · exact .popped rfl hs
  | call nnn =>
    obtain ⟨-, rfl⟩ | ⟨hsp, rfl⟩ := exec_call_next h
    · exact .raised ⟨nnn, rfl, rfl, rfl⟩
    · exact .pushed rfl hsp
  | drw x y n =>
    obtain ⟨-, rfl⟩ | ⟨-, p, -, rfl⟩ := exec_drw_next h
    · exact .raisedData (.inl ⟨x, y, n, rfl⟩)
    · exact .display (.inr ⟨x, y, n, rfl⟩) (State.writesOwn_flag _ rfl)
  | ldBcd x =>
    obtain ⟨-, rfl⟩ | ⟨hr, rfl⟩ := exec_ldBcd_next h
    · exact .raisedData (.inr ⟨x, .inl rfl⟩)
    · exact .stored (.inl ⟨x, rfl, rfl⟩) (.inr hr)
  | storeRegs x =>
    obtain ⟨-, rfl⟩ | ⟨hr, rfl⟩ := exec_storeRegs_next h
    · exact .raisedData (.inr ⟨x, .inr (.inl rfl)⟩)
    · exact .stored (.inr ⟨x, rfl, by simp⟩) (by simpa using hr)
  | loadRegs x =>
    obtain ⟨-, rfl⟩ | ⟨-, rfl⟩ := exec_loadRegs_next h
    · exact .raisedData (.inr ⟨x, .inr (.inr rfl)⟩)
    · rw [State.setRegs_eq]
      refine .registers (State.writesOwn_loadRegs (s := s.advance) ?_) (.inl rfl)
      rw [List.length_map, List.length_range]
      rfl
  | seByte | sneByte | seReg | sneReg | skp | sknp => cases h; exact .skipIf ..
  | sys => cases h; exact .registers s.writesOwn_self (.inl rfl)
  | jp nnn => cases h; exact .registers s.writesOwn_self (s.nextPc_toWord nnn)
  | jpV0 nnn => cases h; exact .registers s.writesOwn_self (s.nextPc_jpV0 nnn _)
  | ldByte | addByte | ldReg | or | and | xor | readDT =>
    cases h; exact .registers (State.writesOwn_dest _ rfl) (.inl rfl)
  | addReg | sub | shr | subn | shl => cases h; exact .registers (State.writesOwn_flagThen _ _ rfl rfl) (.inl rfl)
  | ldI nnn => cases h; exact .index (.inl ⟨nnn, rfl⟩)
  | addI x => cases h; exact .index (.inr ⟨x, .inl rfl⟩)
  | ldFont x => cases h; exact .index (.inr ⟨x, .inr rfl⟩)
  | rnd => cases h; exact .drew rfl (State.writesOwn_dest _ rfl)
  | setDT => cases h; exact .delay rfl
  | setST => cases h; exact .sound rfl
  | waitKey => cases h; exact .waits rfl

end Sys2Proof.Machine
end

section
/-! The frames of the 35 instructions, read off the kinds of effect. -/

namespace Sys2Proof.Machine

variable {s t : State} {i : Instr}

theorem Effect.writesOwn (h : Effect s i t) : s.WritesOwn i t.v := by
  cases h with
  | registers own => exact own
  | display _ own => exact own
  | drew _ own => exact own
  | _ => exact s.writesOwn_self

theorem Effect.i_eq (h : Effect s i t) (hi : ∀ nnn x, i ≠ .ldI nnn ∧ i ≠ .addI x ∧ i ≠ .ldFont x) : t.i = s.i := by
  cases h with
  | index made =>
    obtain ⟨nnn, e⟩ | ⟨x, e | e⟩ := made
    · exact absurd e (hi nnn 0).1
    · exact absurd e (hi 0 x).2.1
    · exact absurd e (hi 0 x).2.2
  | _ => rfl

theorem Effect.stack_eq (h : Effect s i t) (hi : ∀ nnn, i ≠ .call nnn ∧ i ≠ .ret) : t.stack = s.stack := by
  cases h with
  | pushed made => exact absurd made (hi _).1
  | popped made => exact absurd made (hi 0).2
  | _ => rfl

theorem Effect.fb_eq (h : Effect s i t) (hi : ∀ x y n, i ≠ .drw x y n ∧ i ≠ .cls) : t.fb = s.fb := by
  cases h with
  | display made =>
    obtain e | ⟨x, y, n, e⟩ := made
    · exact absurd e (hi 0 0 0).2
    · exact absurd e (hi x y n).1
  | _ => rfl

theorem Effect.dt_eq (h : Effect s i t) (hi : ∀ x, i ≠ .setDT x) : t.dt = s.dt := by
  cases h with
  | delay made => exact absurd made (hi _)
  | _ => rfl

theorem Effect.st_eq (h : Effect s i t) (hi : ∀ x, i ≠ .setST x) : t.st = s.st := by
  cases h with
  | sound made => exact absurd made (hi _)
  | _ => rfl

theorem Effect.mode_eq (h : Effect s i t) (hi : ∀ x, i ≠ .waitKey x) (ht : ¬ t.isHalted) : t.mode = s.mode := by
  cases h with
  | raised => exact absurd ⟨_, rfl⟩ ht
  | waits made => exact absurd made (hi _)
  | _ => rfl

theorem Effect.draws_eq (h : Effect s i t) (hi : ∀ x kk, i ≠ .rnd x kk) : t.draws = s.draws := by
  cases h with
  | drew made => exact absurd made (hi _ _)
  | _ => rfl

/-- The fields that no instruction writes. -/
theorem Effect.unwritten (h : Effect s i t) :
    t.keys = s.keys ∧ t.trace = s.trace ∧ t.params = s.params ∧ t.pending = s.pending := by
  cases h <;> exact ⟨rfl, rfl, rfl, rfl⟩

/-- Settles O41, since every kind of effect writes registers at the instruction's own places only. -/
theorem registersChangeOnlyAtDestinations : Obligations.RegistersChangeOnlyAtDestinations :=
  fun _ _ _ r h hd hf hl => (exec_effect h).writesOwn r ⟨hd, hf, hl⟩

/-- Settles O43, field by field: the kinds of effect that write the field name the instructions. -/
theorem otherStateChangesOnlyByItsInstructions : Obligations.OtherStateChangesOnlyByItsInstructions := by
  intro i s t h
  have he := exec_effect h
  exact ⟨he.i_eq, he.stack_eq, he.fb_eq, he.dt_eq, he.st_eq, he.mode_eq, he.draws_eq, he.unwritten⟩

end Sys2Proof.Machine
end

section
/-! The machine invariant: each part of it under an instruction's effect, then under each event. -/

namespace Sys2Proof.Machine

variable {s t : State} {i : Instr}

/-- The instruction after a fetched one: no wrap. -/
theorem State.toNat_pc_add_two (hpc : s.pc.toNat ≤ 4094) : (s.pc + 2).toNat = s.pc.toNat + 2 := by
  rw [BitVec.toNat_add, show (2 : Word).toNat = 2 from rfl]
  omega

theorem State.NextPc.le_bound {a : Word} (h : s.NextPc a) (hpc : s.pc.toNat ≤ 4094) (hs : s.StackBounded) :
    a.toNat ≤ 0x10FE := by
  have h2 := State.toNat_pc_add_two hpc
  obtain rfl | rfl | h | h := h
  · omega
  · rw [BitVec.toNat_add, h2, show (2 : Word).toNat = 2 from rfl]
    omega
  · exact h
  · have := (hs.2 a h).2
    omega

theorem Effect.pcBounded (h : Effect s i t) (hpc : s.pc.toNat ≤ 4094) (hs : s.StackBounded) : t.PcBounded := by
  cases h with
  | raised => exact hpc.trans (by decide)
  | registers _ next => exact next.le_bound hpc hs
  | pushed => exact (s.nextPc_toWord _).le_bound hpc hs
  | popped _ top => exact State.NextPc.le_bound (.inr (.inr (.inr (by simp [top])))) hpc hs
  | _ => exact State.NextPc.le_bound (s := s) (.inl rfl) hpc hs

theorem Effect.stackBounded (h : Effect s i t) (hpc : s.pc.toNat ≤ 4094) (hs : s.StackBounded) : t.StackBounded := by
  obtain ⟨hlen, hmem⟩ := hs
  cases h with
  | pushed _ room =>
    refine ⟨by simpa [State.sp] using room, fun a ha => ?_⟩
    obtain ha | ha := List.mem_append.1 ha
    · exact hmem a ha
    · rw [List.mem_singleton.1 ha]
      have := State.toNat_pc_add_two hpc
      omega
  | popped _ top =>
    rw [State.sp, top, List.length_append] at hlen
    exact ⟨by simp only [State.sp]; omega, fun a ha => hmem a (by simp [top, ha])⟩
  | _ => exact ⟨hlen, hmem⟩

theorem Effect.memCanonical (h : Effect s i t) (hm : s.MemCanonical) : t.MemCanonical := by
  cases h with
  | stored _ range =>
    obtain h0 | hr := range
    · rw [List.length_eq_zero_iff.1 h0]; exact hm
    · exact Memory.writeBytes_wf _ _ _ _ hr hm
  | _ => exact hm

theorem Effect.haltPrecise (h : Effect s i t) (hrun : s.mode = .running) : t.HaltPrecise := by
  intro info hinfo
  cases h with
  | raised shape => cases hinfo; exact ⟨rfl, shape⟩
  | waits => cases hinfo
  | _ => cases hrun.symm.trans hinfo

/-- An executed instruction, recorded, keeps the invariant (40_step_cycle.md R128, R129). -/
theorem Effect.inv_recordTrace {w : Word} (h : Effect s i t) (hs : s.Inv) (hrun : s.mode = .running)
    (hpc : s.pc.toNat ≤ 4094) (hd : decodeWord w = some i) : (t.recordTrace w (some i)).Inv where
  pcBounded := h.pcBounded hpc hs.stackBounded
  stackBounded := h.stackBounded hpc hs.stackBounded
  memCanonical := h.memCanonical hs.memCanonical
  haltPrecise := h.haltPrecise hrun
  traceSound := by rintro _ ⟨⟩; exact hd

/-- The driver's `step` keeps the invariant. -/
theorem serveStep_inv (hs : s.Inv) (h : serveStep s = .next t) : t.Inv := by
  obtain ⟨-, rfl⟩ | ⟨-, hf, rfl⟩ | ⟨w, -, -, hd, rfl⟩ | ⟨w, ins, u, hrun, hf, hd, he, rfl⟩ := serveStep_next h
  · exact hs
  · refine { hs with haltPrecise := ?_ }
    rintro _ ⟨⟩
    exact ⟨rfl, (State.fetch16_eq_none s).1 hf, rfl, rfl, rfl⟩
  · refine { hs with haltPrecise := ?_, traceSound := ?_ }
    · rintro _ ⟨⟩
      exact ⟨rfl, ⟨w, rfl, hd⟩, rfl, rfl⟩
    · rintro _ ⟨⟩
      exact hd
  · exact (exec_effect he).inv_recordTrace hs hrun ((State.fetch16_eq_some s w).1 hf).1 hd

/-- A key-down halts nothing. -/
theorem State.completeWait_mode_halted {code : Nat} {info : FaultRecord}
    (h : (s.completeWait code).mode = .halted info) : s.mode = .halted info := by
  unfold State.completeWait at h
  split at h
  · cases h
  · exact h
  · exact h

theorem State.Inv.completeWait (hs : s.Inv) (code : Nat) : (s.completeWait code).Inv where
  pcBounded := by rw [State.PcBounded, State.completeWait_pc]; exact hs.pcBounded
  stackBounded := by rw [State.StackBounded, State.sp, State.completeWait_stack]; exact hs.stackBounded
  memCanonical := by rw [State.MemCanonical, State.completeWait_params, State.completeWait_mem]; exact hs.memCanonical
  haltPrecise := fun info h => by
    rw [State.completeWait_pc]
    exact hs.haltPrecise info (State.completeWait_mode_halted h)
  traceSound := by rw [State.TraceSound, State.completeWait_trace]; exact hs.traceSound

theorem State.load_inv (s : State) {bytes : List Byte} (h : bytes.length ≤ 3584) : (s.load bytes).Inv where
  pcBounded := by rw [State.PcBounded, State.load_pc]; decide
  stackBounded := by simp [State.StackBounded, State.sp]
  memCanonical := s.load_mem_wf bytes h
  haltPrecise := fun _ h => by cases h
  traceSound := fun _ h => by cases h

/-- Every event keeps the invariant. -/
theorem serve_inv {e : Event} (hs : s.Inv) (h : serve e s = .next t) : t.Inv := by
  obtain ⟨-, h⟩ | ⟨-, rfl⟩ | ⟨code, -, -, rfl⟩ | ⟨code, -, -, rfl⟩ | ⟨bytes, -, hb, rfl⟩ := serve_next h
  · exact serveStep_inv hs h
  · exact { hs with }
  · exact State.Inv.completeWait (s := { s with keys := s.keys ||| BitVec.twoPow 16 code }) { hs with } code
  · exact { hs with }
  · exact s.load_inv hb

/-- Settles O58: a step serves one event, and `pending`, which it shortens, is no part of the invariant. -/
theorem everyStepKeepsTheMachineInvariant : Obligations.EveryStepKeepsTheMachineInvariant := by
  intro s t hs h
  obtain ⟨-, h⟩ | ⟨e, rest, -, h⟩ := step_next h
  · exact serve_inv hs h
  · exact serve_inv (s := { s with pending := rest }) { hs with } h

end Sys2Proof.Machine
end

section
/-! SUPPORT. The equations of the call and of the events, each under the condition of its branch. -/

namespace Sys2Proof.Machine

variable {s t : State} {i : Instr}

theorem exec_call_of_lt (nnn : Addr12) (h : s.sp < 16) :
    exec (.call nnn) s = .next { s with stack := s.stack ++ [s.pc + 2], pc := nnn.toWord } := by
  simp only [exec, execCall, (State.push_eq_some s _ _).2 ⟨h, rfl⟩]
  rfl

theorem exec_call_of_full (nnn : Addr12) (h : 16 ≤ s.sp) :
    exec (.call nnn) s = .next (s.raiseExec .stackOverflow (.call nnn) none) := by
  simp only [exec, execCall, (State.push_eq_none s _).2 h]

theorem serveStep_of_not_running (h : s.mode ≠ .running) : serveStep s = .next s := by
  unfold serveStep
  split
  · rfl
  · rfl
  · contradiction

theorem serveStep_of_fetch_none (hm : s.mode = .running) (hf : s.fetch16 = none) :
    serveStep s = .next s.raiseFetch := by
  simp only [serveStep, hm, hf]

theorem serveStep_of_decode_none {w : Word} (hm : s.mode = .running) (hf : s.fetch16 = some w)
    (hd : decodeWord w = none) : serveStep s = .next ((s.raiseDecode w).recordTrace w none) := by
  simp only [serveStep, hm, hf, hd]

theorem serveStep_of_exec {w : Word} (hm : s.mode = .running) (hf : s.fetch16 = some w) (hd : decodeWord w = some i)
    (he : exec i s = .next t) : serveStep s = .next (t.recordTrace w (some i)) := by
  simp only [serveStep, hm, hf, hd, executeAndRecord, he]

theorem serve_keyDown_of_lt {code : Nat} (h : code < 16) : serve (.reportKeyDown code) s =
    .next (State.completeWait { s with keys := s.keys ||| BitVec.twoPow 16 code } code) := if_pos h

theorem serve_keyUp_of_lt {code : Nat} (h : code < 16) :
    serve (.reportKeyUp code) s = .next { s with keys := s.keys &&& ~~~BitVec.twoPow 16 code } := if_pos h

theorem serve_load_of_le {bytes : List Byte} (h : bytes.length ≤ 3584) :
    serve (.load bytes) s = .next (s.load bytes) := if_pos h

theorem step_of_pending_nil (h : s.pending = []) : step s = serve .step s := by
  simp only [step, serveNext, h]

theorem step_of_pending_cons {e : Event} {rest : List Event} (h : s.pending = e :: rest) :
    step s = serve e { s with pending := rest } := by
  simp only [step, serveNext, h]

end Sys2Proof.Machine
end

section
/-! Calls in a row (10_state.md R33). -/

namespace Sys2Proof.Machine

variable {s t : State}

/-- Calls after calls that have a next state go on from it. -/
theorem callAll_append (l₁ l₂ : List Addr12) (h : callAll l₁ s = .next t) :
    callAll (l₁ ++ l₂) s = callAll l₂ t := by
  induction l₁ generalizing s with
  | nil => cases h; rfl
  | cons nnn l₁ ih =>
    simp only [callAll] at h
    simp only [callAll, List.cons_append]
    split at h
    · next e => exact ih h
    · cases h
    · cases h

/-- Calls that fit all push. -/
theorem callAll_of_fits (targets : List Addr12) (s : State) (h : s.sp + targets.length ≤ 16) :
    ∃ t, callAll targets s = .next t ∧ t.sp = s.sp + targets.length ∧ t.mode = s.mode := by
  induction targets generalizing s with
  | nil => exact ⟨s, rfl, rfl, rfl⟩
  | cons nnn rest ih =>
    rw [List.length_cons] at h ⊢
    have hsp : State.sp { s with stack := s.stack ++ [s.pc + 2], pc := nnn.toWord } = s.sp + 1 := by simp [State.sp]
    obtain ⟨t, ht, htsp, htm⟩ := ih { s with stack := s.stack ++ [s.pc + 2], pc := nnn.toWord } (by omega)
    exact ⟨t, by rw [callAll, exec_call_of_lt nnn (by omega)]; exact ht, by omega, htm⟩

/-- On a full stack the first call halts the core; each call after it leaves the record of its own raise. -/
theorem callAll_of_full (nnn : Addr12) (rest : List Addr12) (s : State) (h : 16 ≤ s.sp) :
    ∃ t info, callAll (nnn :: rest) s = .next t ∧ t.sp = s.sp ∧ t.mode = .halted info ∧
      info.cause = .stackOverflow := by
  induction rest generalizing s nnn with
  | nil =>
    rw [callAll, exec_call_of_full nnn h]
    exact ⟨_, _, rfl, rfl, rfl, rfl⟩
  | cons nnn' rest ih =>
    rw [callAll, exec_call_of_full nnn h]
    exact ih nnn' (s.raiseExec .stackOverflow (.call nnn) none) h

/-- Settles O9: the first 16 targets fit, and the others meet a full stack. -/
theorem sixteenCallsSucceedAndTheNextHalts : Obligations.SixteenCallsSucceedAndTheNextHalts := by
  intro targets s hs hm
  have hsp : s.sp = 0 := by rw [State.sp, hs, List.length_nil]
  by_cases hlen : targets.length ≤ 16
  · obtain ⟨t, ht, htsp, htm⟩ := callAll_of_fits targets s (by omega)
    exact ⟨t, ht, fun _ => ⟨by omega, htm.trans hm⟩, fun _ => by omega⟩
  · have htake : (targets.take 16).length = 16 := by rw [List.length_take]; omega
    obtain ⟨u, hu, husp, -⟩ := callAll_of_fits (targets.take 16) s (by omega)
    have hdrop : targets.drop 16 ≠ [] := by
      rw [Ne, List.drop_eq_nil_iff]; exact hlen
    obtain ⟨nnn, rest, hrest⟩ := List.exists_cons_of_ne_nil hdrop
    obtain ⟨t, info, ht, htsp, htm, hc⟩ := callAll_of_full nnn rest u (by omega)
    refine ⟨t, ?_, fun _ => by omega, fun _ => ⟨by omega, info, htm, hc⟩⟩
    rw [← List.take_append_drop 16 targets, callAll_append _ _ hu, hrest, ht]

end Sys2Proof.Machine
end

section
/-! The trace record has no effect: replacing it commutes with every operation, instruction and event. -/

namespace Sys2Proof.Machine

variable {s t : State} {i : Instr}

/-- Another trace record in place of the state's own. -/
def State.withTrace (s : State) (r : Option TraceRecord) : State := { s with trace := r }

section

variable (s : State) (r : Option TraceRecord)

@[simp] theorem State.withTrace_mode : (s.withTrace r).mode = s.mode := rfl
@[simp] theorem State.withTrace_i : (s.withTrace r).i = s.i := rfl
@[simp] theorem State.withTrace_pc : (s.withTrace r).pc = s.pc := rfl
@[simp] theorem State.withTrace_stack : (s.withTrace r).stack = s.stack := rfl
@[simp] theorem State.withTrace_sp : (s.withTrace r).sp = s.sp := rfl
@[simp] theorem State.withTrace_getV (x : Reg) : (s.withTrace r).getV x = s.getV x := rfl
@[simp] theorem State.withTrace_bulkCount (x : Reg) : (s.withTrace r).bulkCount x = s.bulkCount x := rfl
@[simp] theorem State.withTrace_regBytes (cnt : Nat) : (s.withTrace r).regBytes cnt = s.regBytes cnt := rfl
@[simp] theorem State.withTrace_readBytes (a cnt : Nat) : (s.withTrace r).readBytes a cnt = s.readBytes a cnt := rfl

@[simp] theorem State.withTrace_writeBytes (a : Nat) (bs : List Byte) :
    (s.withTrace r).writeBytes a bs = (s.writeBytes a bs).map (·.withTrace r) := by
  unfold State.writeBytes
  split <;> rfl

@[simp] theorem State.withTrace_push (a : Word) : (s.withTrace r).push a = (s.push a).map (·.withTrace r) := by
  unfold State.push
  rw [State.withTrace_sp]
  split <;> rfl

@[simp] theorem State.withTrace_pop : (s.withTrace r).pop = s.pop.map fun p => (p.1, p.2.withTrace r) := by
  unfold State.pop
  rw [State.withTrace_stack]
  cases s.stack.getLast? <;> rfl

theorem State.withTrace_skipIf (c : Bool) : (s.withTrace r).skipIf c = (s.skipIf c).withTrace r := by
  cases c <;> rfl

theorem State.withTrace_setRegs (bs : List Byte) (k : Nat) :
    (s.withTrace r).setRegs k bs = (s.setRegs k bs).withTrace r := by
  induction bs generalizing s k with
  | nil => rfl
  | cons b bs ih => exact ih (s.setV (BitVec.ofNat 4 k) b) (k + 1)

end

/-- A change of the next state, where there is one. -/
def mapNext (f : State → State) : Result → Result
  | .next t => .next (f t)
  | .fault e => .fault e
  | .refused e => .refused e

/-- No instruction reads the trace record. -/
theorem exec_withTrace (i : Instr) (s : State) (r : Option TraceRecord) :
    exec i (s.withTrace r) = mapNext (·.withTrace r) (exec i s) := by
  cases i with
  | ret =>
    simp only [exec, execRet, State.withTrace_pop]
    cases s.pop <;> rfl
  | call nnn =>
    simp only [exec, execCall, State.withTrace_push, State.withTrace_pc]
    cases s.push (s.pc + 2) <;> rfl
  | drw x y n =>
    simp only [exec, execDrw, State.withTrace_readBytes, State.withTrace_i]
    cases s.readBytes s.i.toNat n.toNat <;> rfl
  | ldBcd x =>
    simp only [exec, execLdBcd, State.withTrace_writeBytes, State.withTrace_i, State.withTrace_getV]
    cases s.writeBytes s.i.toNat (decimalDigits (s.getV x)) <;> rfl
  | storeRegs x =>
    simp only [exec, execStoreRegs, State.withTrace_writeBytes, State.withTrace_i, State.withTrace_regBytes,
      State.withTrace_bulkCount]
    cases s.writeBytes s.i.toNat (s.regBytes (s.bulkCount x)) <;> rfl
  | loadRegs x =>
    simp only [exec, execLoadRegs, State.withTrace_readBytes, State.withTrace_i, State.withTrace_bulkCount]
    cases s.readBytes s.i.toNat (s.bulkCount x) with
    | none => rfl
    | some bs => exact congrArg Host.Outcome.next (s.advance.withTrace_setRegs r bs 0)
  | seByte | sneByte | seReg | sneReg | skp | sknp =>
    exact congrArg Host.Outcome.next (s.advance.withTrace_skipIf r _)
  | _ => rfl

theorem State.withTrace_completeWait (s : State) (r : Option TraceRecord) (code : Nat) :
    (s.withTrace r).completeWait code = (s.completeWait code).withTrace r := by
  simp only [State.completeWait, State.withTrace_mode]
  cases s.mode <;> rfl

/-- The driver's `step` with another trace record does the same, and leaves that record or writes its own. -/
theorem serveStep_withTrace (r : Option TraceRecord) (h : serveStep s = .next t) :
    ∃ r', serveStep (s.withTrace r) = .next (t.withTrace r') := by
  obtain ⟨hm, rfl⟩ | ⟨hm, hf, rfl⟩ | ⟨w, hm, hf, hd, rfl⟩ | ⟨w, i, u, hm, hf, hd, he, rfl⟩ := serveStep_next h
  · exact ⟨r, serveStep_of_not_running hm⟩
  · exact ⟨r, serveStep_of_fetch_none hm hf⟩
  · exact ⟨_, serveStep_of_decode_none hm hf hd⟩
  · have he' : exec i (s.withTrace r) = .next (u.withTrace r) := by rw [exec_withTrace, he]; rfl
    exact ⟨some ⟨w, some i⟩, serveStep_of_exec (s := s.withTrace r) (t := u.withTrace r) hm hf hd he'⟩

theorem serve_withTrace (r : Option TraceRecord) {e : Event} (h : serve e s = .next t) :
    ∃ r', serve e (s.withTrace r) = .next (t.withTrace r') := by
  obtain ⟨rfl, h⟩ | ⟨rfl, rfl⟩ | ⟨code, rfl, hc, rfl⟩ | ⟨code, rfl, hc, rfl⟩ | ⟨bytes, rfl, hb, rfl⟩ := serve_next h
  · exact serveStep_withTrace r h
  · exact ⟨r, rfl⟩
  · have hw := State.withTrace_completeWait { s with keys := s.keys ||| BitVec.twoPow 16 code } r code
    exact ⟨r, (serve_keyDown_of_lt hc).trans (congrArg Host.Outcome.next hw)⟩
  · exact ⟨r, serve_keyUp_of_lt hc⟩
  · exact ⟨none, serve_load_of_le hb⟩

theorem step_withTrace (r : Option TraceRecord) (h : step s = .next t) :
    ∃ r', step (s.withTrace r) = .next (t.withTrace r') := by
  obtain ⟨hp, h⟩ | ⟨e, rest, hp, h⟩ := step_next h
  · rw [step_of_pending_nil (s := s.withTrace r) hp]
    exact serve_withTrace r h
  · rw [step_of_pending_cons (s := s.withTrace r) hp]
    exact serve_withTrace r h

/-- Settles O57: the step from the state with the other record is the same step. -/
theorem traceHasNoEffect : Obligations.TraceHasNoEffect := by
  intro s t r h
  obtain ⟨r', h'⟩ := step_withTrace r h
  exact ⟨t.withTrace r', h', rfl⟩

end Sys2Proof.Machine
end

section
/-! SUPPORT. What the decoder makes of a word: the word's own fields as operands, and the row that the scan of the
descriptor table selects (30_encoding.md R93, R95 to R98). -/

namespace Sys2Proof

variable {i : Instr}

theorem decodeOp8_operands {x y : Reg} {n : Nat} (h : decodeOp8 x y n = some i) :
    i.operands = if n = 0x6 ∨ n = 0xE then [x.toNat] else [x.toNat, y.toNat] := by
  unfold decodeOp8 at h
  split at h <;> cases h <;> rfl

theorem decodeOpE_operands {x : Reg} {kk : Nat} (h : decodeOpE x kk = some i) : i.operands = [x.toNat] := by
  unfold decodeOpE at h
  split at h <;> cases h <;> rfl

theorem decodeOpF_operands {x : Reg} {kk : Nat} (h : decodeOpF x kk = some i) : i.operands = [x.toNat] := by
  unfold decodeOpF at h
  split at h <;> cases h <;> rfl

theorem decodeOp0_operands (w : Word) :
    (decodeOp0 w).operands = if w = 0x00E0 ∨ w = 0x00EE then [] else [w.toNat % 4096] := by
  unfold decodeOp0
  split
  · next h => subst h; decide
  · split
    · next h => subst h; decide
    · next h h' => simp only [h, h', or_self, if_false, Instr.operands, Field.nnn_toNat]

/-- The operands are the word's own fields, in the order of the trace (30_encoding.md R91, R93). -/
theorem decodeWord_operands {w : Word} (h : decodeWord w = some i) : i.operands = fieldsInTraceOrder w := by
  unfold decodeWord at h
  rw [Field.op_toNat] at h
  split at h <;> rename_i hop <;>
    simp only [fieldsInTraceOrder, hop, ← Field.x_toNat, ← Field.y_toNat, ← Field.n_toNat, ← Field.kk_toNat,
      ← Field.nnn_toNat]
  case h_1 => cases h; exact (decodeOp0_operands w).trans (by rw [Field.nnn_toNat])
  case h_9 => exact decodeOp8_operands h
  case h_15 => exact decodeOpE_operands h
  case h_16 => exact decodeOpF_operands h
  case h_6 | h_10 =>
    split at h
    · cases h; rfl
    · cases h
  case h_17 => cases h
  all_goals cases h; rfl

/-! Rows. -/

section

variable {d : Descriptor} {w : Word}

/-- The mask F000 compares the primary opcode alone. -/
theorem Descriptor.selects_op (hm : d.mask = 0xF000) (hp : d.pat.toNat % 4096 = 0) :
    d.selects w = decide (w.toNat / 4096 = d.pat.toNat / 4096) := by
  rw [Bool.eq_iff_iff, Descriptor.selects, hm, beq_iff_eq, decide_eq_true_eq, mask_op, ← BitVec.toNat_inj,
    formatXYN_toNat, Field.op_toNat, show (0 : Reg).toNat = 0 from rfl]
  omega

/-- The mask F00F compares the low nibble too. -/
theorem Descriptor.selects_op_n (hm : d.mask = 0xF00F) (hp : d.pat.toNat / 16 % 256 = 0) :
    d.selects w = decide (w.toNat / 4096 = d.pat.toNat / 4096 ∧ w.toNat % 16 = d.pat.toNat % 16) := by
  rw [Bool.eq_iff_iff, Descriptor.selects, hm, beq_iff_eq, decide_eq_true_eq, mask_op_n, ← BitVec.toNat_inj,
    formatXYN_toNat, Field.op_toNat, Field.n_toNat, show (0 : Reg).toNat = 0 from rfl]
  omega

/-- The mask F0FF compares the low byte too. -/
theorem Descriptor.selects_op_kk (hm : d.mask = 0xF0FF) (hp : d.pat.toNat / 256 % 16 = 0) :
    d.selects w = decide (w.toNat / 4096 = d.pat.toNat / 4096 ∧ w.toNat % 256 = d.pat.toNat % 256) := by
  rw [Bool.eq_iff_iff, Descriptor.selects, hm, beq_iff_eq, decide_eq_true_eq, mask_op_kk, ← BitVec.toNat_inj,
    formatXK_toNat, Field.op_toNat, Field.kk_toNat, show (0 : Reg).toNat = 0 from rfl]
  omega

/-- The mask FFFF compares the whole word. -/
theorem Descriptor.selects_word (hm : d.mask = BitVec.allOnes 16) : d.selects w = decide (w = d.pat) := by
  rw [Descriptor.selects, hm, BitVec.and_allOnes]
  rfl

end

theorem Descriptor.op_eq_of_selects {d : Descriptor} {w : Word} (hd : d ∈ descriptors) (h : d.selects w = true) :
    Field.op d.pat = Field.op w := by
  have hmask : ∀ d ∈ descriptors, Field.op d.mask = BitVec.allOnes 4 := by decide
  rw [← eq_of_beq h, Field.op_and, hmask d hd, BitVec.and_allOnes]

/-- The rows of one primary opcode (30_encoding.md R98). -/
def rowsOf (op : Nat) : List Descriptor := descriptors.filter fun d => d.pat.toNat / 4096 = op

/-- The scan finds what a scan of the rows of the word's own opcode finds: every mask compares the opcode. -/
theorem scanTable_eq_rowsOf (w : Word) :
    scanTable w = ((rowsOf (w.toNat / 4096)).find? (·.selects w)).map (·.row) := by
  have hfind : descriptors.find? (·.selects w) = (rowsOf (w.toNat / 4096)).find? (·.selects w) := by
    rw [rowsOf, List.find?_filter]
    refine List.find?_congr fun d hd => ?_
    rw [Bool.eq_iff_iff, decide_eq_true_eq, decide_eq_true_eq, ← Field.op_toNat, ← Field.op_toNat]
    exact ⟨fun h => ⟨congrArg _ (Descriptor.op_eq_of_selects hd h), h⟩, And.right⟩
  rw [scanTable, hfind]

/-- An opcode with one row, whose mask is F000. -/
theorem scanTable_of_op_row {w : Word} {d : Descriptor} (hrows : rowsOf (w.toNat / 4096) = [d])
    (hm : d.mask = 0xF000) (hp : d.pat.toNat % 4096 = 0) (hop : w.toNat / 4096 = d.pat.toNat / 4096) :
    scanTable w = some d.row := by
  rw [scanTable_eq_rowsOf, hrows]
  simp [Descriptor.selects_op hm hp, hop]

/-- An opcode with one row, whose low nibble is 0. -/
theorem scanTable_of_op_n_row {w : Word} {d : Descriptor} (hrows : rowsOf (w.toNat / 4096) = [d])
    (hm : d.mask = 0xF00F) (hp : d.pat.toNat % 4096 = 0) (hop : w.toNat / 4096 = d.pat.toNat / 4096) :
    scanTable w = if Field.n w = 0 then some d.row else none := by
  have hn : Field.n w = 0 ↔ w.toNat % 16 = d.pat.toNat % 16 := by
    rw [← BitVec.toNat_inj, Field.n_toNat, show (0 : Nibble).toNat = 0 from rfl]
    omega
  have hsel : d.selects w = decide (Field.n w = 0) := by
    rw [Descriptor.selects_op_n hm (by omega), decide_eq_decide, hn]
    exact and_iff_right hop
  rw [scanTable_eq_rowsOf, hrows, List.find?_singleton, hsel]
  by_cases h : Field.n w = 0 <;> simp [h]

theorem scanTable_op0 {w : Word} (hop : w.toNat / 4096 = 0x0) : scanTable w = some (decodeOp0 w).row := by
  rw [scanTable_eq_rowsOf, hop,
    show rowsOf 0x0 = [⟨1, 0xFFFF, 0x00E0⟩, ⟨2, 0xFFFF, 0x00EE⟩, ⟨3, 0xF000, 0x0000⟩] by decide]
  unfold decodeOp0
  split
  · next h => subst h; decide
  · split
    · next h => subst h; decide
    · next h h' =>
      rw [List.find?_cons_of_neg (by rw [Descriptor.selects_word rfl, decide_eq_true_eq]; exact h),
        List.find?_cons_of_neg (by rw [Descriptor.selects_word rfl, decide_eq_true_eq]; exact h'),
        List.find?_cons_of_pos (by rw [Descriptor.selects_op rfl rfl, hop]; rfl)]
      rfl

theorem scanTable_op8 {w : Word} (hop : w.toNat / 4096 = 0x8) (x y : Reg) :
    scanTable w = (decodeOp8 x y (w.toNat % 16)).map Instr.row := by
  rw [scanTable_eq_rowsOf, hop, show rowsOf 0x8 = descriptorsLow.drop 10 by decide]
  unfold decodeOp8
  split
  case h_10 =>
    simp only [imp_false] at *
    simp (disch := decide) [descriptorsLow, List.find?, Descriptor.selects_op_n, *]
  all_goals simp (disch := decide) [descriptorsLow, List.find?, Descriptor.selects_op_n, Instr.row, *]

theorem scanTable_opE {w : Word} (hop : w.toNat / 4096 = 0xE) (x : Reg) :
    scanTable w = (decodeOpE x (w.toNat % 256)).map Instr.row := by
  rw [scanTable_eq_rowsOf, hop, show rowsOf 0xE = [⟨25, 0xF0FF, 0xE09E⟩, ⟨26, 0xF0FF, 0xE0A1⟩] by decide]
  unfold decodeOpE
  split
  case h_3 =>
    simp only [imp_false] at *
    simp (disch := decide) [List.find?, Descriptor.selects_op_kk, *]
  all_goals simp (disch := decide) [List.find?, Descriptor.selects_op_kk, Instr.row, *]

theorem scanTable_opF {w : Word} (hop : w.toNat / 4096 = 0xF) (x : Reg) :
    scanTable w = (decodeOpF x (w.toNat % 256)).map Instr.row := by
  rw [scanTable_eq_rowsOf, hop, show rowsOf 0xF = descriptorsHigh.drop 7 by decide]
  unfold decodeOpF
  split
  case h_10 =>
    simp only [imp_false] at *
    simp (disch := decide) [descriptorsHigh, List.find?, Descriptor.selects_op_kk, *]
  all_goals simp (disch := decide) [descriptorsHigh, List.find?, Descriptor.selects_op_kk, Instr.row, *]

/-- The decoder selects the row that the scan of the table selects (30_encoding.md R95, R98). -/
theorem map_row_decodeWord (w : Word) : (decodeWord w).map Instr.row = scanTable w := by
  have hw := w.isLt
  unfold decodeWord
  rw [Field.op_toNat, Field.n_toNat, Field.kk_toNat]
  split <;> rename_i hop
  case h_1 => exact (scanTable_op0 hop).symm
  case h_9 => exact (scanTable_op8 hop _ _).symm
  case h_15 => exact (scanTable_opE hop _).symm
  case h_16 => exact (scanTable_opF hop _).symm
  case h_6 | h_10 =>
    rw [scanTable_of_op_n_row (by rw [hop]; rfl) rfl (by decide) (by rw [hop]; rfl)]
    split <;> rfl
  case h_17 => simp only [imp_false] at *; omega
  all_goals exact (scanTable_of_op_row (by rw [hop]; rfl) rfl (by decide) (by rw [hop]; rfl)).symm

end Sys2Proof
end

section
/-! The trace output: what each event does to the trace record (10_state.md R40). -/

namespace Sys2Proof.Machine

variable {s t : State} {i : Instr}

/-- What the trace output shows of a word: its row and its fields. -/
theorem map_shown_decodeWord (w : Word) :
    (decodeWord w).map Instr.shown = (scanTable w).map fun row => (row, fieldsInTraceOrder w) := by
  rw [← map_row_decodeWord, Option.map_map]
  exact Option.map_congr fun i hi => congrArg (Prod.mk i.row) (decodeWord_operands hi)

theorem serveStep_traceOutput {w : Word} (h : serveStep s = .next t) (hm : s.mode = .running)
    (hf : s.fetch16 = some w) : t.traceOutput = some (w, (decodeWord w).map Instr.shown) := by
  obtain ⟨hm', -⟩ | ⟨-, hf', -⟩ | ⟨w', -, hf', hd, rfl⟩ | ⟨w', i, u, -, hf', hd, -, rfl⟩ := serveStep_next h
  · exact absurd hm hm'
  · cases hf.symm.trans hf'
  · cases hf.symm.trans hf'
    rw [hd]
    rfl
  · cases hf.symm.trans hf'
    rw [hd]
    rfl

/-- A step that does not reach the decode phase leaves the trace. -/
theorem serveStep_trace_eq (h : serveStep s = .next t) (hf : s.mode = .running → s.fetch16 = none) :
    t.trace = s.trace := by
  obtain ⟨-, rfl⟩ | ⟨-, -, rfl⟩ | ⟨w, hm, hf', -⟩ | ⟨w, i, u, hm, hf', -⟩ := serveStep_next h
  · rfl
  · rfl
  · cases (hf hm).symm.trans hf'
  · cases (hf hm).symm.trans hf'

theorem serve_trace_eq {e : Event} (h : serve e s = .next t)
    (hf : e = .step → s.mode = .running → s.fetch16 = none) (hl : ∀ bytes, e ≠ .load bytes) : t.trace = s.trace := by
  obtain ⟨he, h⟩ | ⟨-, rfl⟩ | ⟨code, -, -, rfl⟩ | ⟨code, -, -, rfl⟩ | ⟨bytes, he, -⟩ := serve_next h
  · exact serveStep_trace_eq h (hf he)
  · rfl
  · exact State.completeWait_trace _ code
  · rfl
  · exact absurd he (hl bytes)

/-- Settles O60, from what the decoder makes of a word and what each event does to the record. -/
theorem traceOutputShowsTheLastDecodedStep : Obligations.TraceOutputShowsTheLastDecodedStep := by
  refine ⟨fun _ _ => decodeWord_operands, fun s t w hm hf h => ?_, fun s t e h hf hl => ?_, fun s t bytes h => ?_⟩
  · rw [serveStep_traceOutput h hm hf, map_shown_decodeWord]
  · rw [State.traceOutput, serve_trace_eq h hf hl, State.traceOutput]
  · obtain ⟨he, -⟩ | ⟨he, -⟩ | ⟨_, he, -⟩ | ⟨_, he, -⟩ | ⟨_, -, -, rfl⟩ := serve_next h
    · cases he
    · cases he
    · cases he
    · cases he
    · rfl

end Sys2Proof.Machine
end

section
/-! The reset state (10_state.md R44, R45). -/

namespace Sys2Proof.Machine

/-- Every pixel of a clear display is off (10_state.md R38). -/
@[simp] theorem pixelAt_clearSurface (x y : Nat) : pixelAt clearSurface x y = false := by
  simp [pixelAt, clearSurface]

/-- Settles O53: every value but the display is the field itself, and every pixel of the clear display is off. -/
theorem resetValues : Obligations.ResetValues :=
  ⟨fun r => Vector.getElem_replicate r.isLt, rfl, rfl, rfl, rfl, rfl, pixelAt_clearSurface, rfl, rfl⟩

theorem State.load_nil (s : State) :
    s.load [] = { State.reset with params := s.params, draws := s.draws, pending := s.pending } := rfl

/-- Settles O55: such a load changes no field but the model's own, which the hypotheses give. -/
theorem resetIsLoadOfTheEmptyProgram : Obligations.ResetIsLoadOfTheEmptyProgram := by
  intro s hp hd hpend
  have hload : s.load [] = State.reset := by rw [State.load_nil, hp, hd, hpend]; rfl
  rw [serve_load_of_le (Nat.zero_le _), hload]

end Sys2Proof.Machine
end

section
/-! SUPPORT. What memory reads as after a store from `I` on, and the four instructions that access data memory, each
where its range leaves memory (20_memory.md R61, R65). -/

namespace Sys2Proof.Machine

variable {s t : State} {i : Instr}

@[simp] theorem State.getElem_regBytes (s : State) (cnt k : Nat) (h : k < (s.regBytes cnt).length) :
    (s.regBytes cnt)[k] = s.getV (BitVec.ofNat 4 k) := by
  simp [State.regBytes]

/-- What each address reads as after `LD [I], Vx`. -/
theorem exec_storeRegs_peek {x : Reg} (h : exec (.storeRegs x) s = .next t) (ht : ¬ t.isHalted) (a : Nat) :
    t.peek a = if s.i.toNat ≤ a ∧ a < s.i.toNat + s.bulkCount x then s.getV (BitVec.ofNat 4 (a - s.i.toNat))
      else s.peek a := by
  obtain ⟨-, rfl⟩ | ⟨-, rfl⟩ := exec_storeRegs_next h
  · exact absurd ⟨_, rfl⟩ ht
  · refine (Memory.read_writeBytes _ _ _ _ _).trans ?_
    simp only [State.regBytes_length, State.getElem_regBytes, dite_eq_ite]
    rfl

/-- The byte that `LD [I], Vx` stores for each register of its range. -/
theorem exec_storeRegs_peek_reg {x r : Reg} (h : exec (.storeRegs x) s = .next t) (ht : ¬ t.isHalted)
    (hr : r.toNat < s.bulkCount x) : t.peek (s.i.toNat + r.toNat) = s.getV r := by
  rw [exec_storeRegs_peek h ht, if_pos (by omega), Nat.add_sub_cancel_left, BitVec.ofNat_toNat, BitVec.setWidth_eq]

/-- The kind of effect that stores bytes names the instruction and its range. -/
theorem Effect.peek_eq {a : Nat} (h : Effect s i t) (hbcd : ∀ x, i = .ldBcd x → a < s.i.toNat ∨ s.i.toNat + 3 ≤ a)
    (hbulk : ∀ x, i = .storeRegs x → a < s.i.toNat ∨ s.i.toNat + s.bulkCount x ≤ a) : t.peek a = s.peek a := by
  cases h with
  | @stored bs made =>
    have hout : a < s.i.toNat ∨ s.i.toNat + bs.length ≤ a := by
      obtain ⟨x, hi, hlen⟩ | ⟨x, hi, hlen⟩ := made
      · exact hlen ▸ hbcd x hi
      · exact hlen ▸ hbulk x hi
    exact (Memory.read_writeBytes _ _ _ _ _).trans (dif_neg (by omega))
  | _ => rfl

theorem exec_drw_of_outside (x y : Reg) {n : Nibble} (h : ¬ (n.toNat = 0 ∨ s.i.toNat + n.toNat ≤ 4096)) :
    exec (.drw x y n) s = .next (s.raiseData (.drw x y n)) := by
  simp only [exec, execDrw, (State.readBytes_eq_none s _ _).2 h]

theorem exec_ldBcd_of_outside (x : Reg) (h : 4096 < s.i.toNat + 3) :
    exec (.ldBcd x) s = .next (s.raiseData (.ldBcd x)) := by
  have hw := (State.writeBytes_eq_none s s.i.toNat (decimalDigits (s.getV x))).2 (by rw [decimalDigits_length]; omega)
  simp only [exec, execLdBcd, hw]

theorem exec_storeRegs_of_outside {x : Reg} (h : ¬ (s.bulkCount x = 0 ∨ s.i.toNat + s.bulkCount x ≤ 4096)) :
    exec (.storeRegs x) s = .next (s.raiseData (.storeRegs x)) := by
  have hw := (State.writeBytes_eq_none s s.i.toNat (s.regBytes (s.bulkCount x))).2 (by rwa [State.regBytes_length])
  simp only [exec, execStoreRegs, hw]

theorem exec_loadRegs_of_outside {x : Reg} (h : ¬ (s.bulkCount x = 0 ∨ s.i.toNat + s.bulkCount x ≤ 4096)) :
    exec (.loadRegs x) s = .next (s.raiseData (.loadRegs x)) := by
  simp only [exec, execLoadRegs, (State.readBytes_eq_none s _ _).2 h]

/-- The offending address of a range that leaves memory, `max(I, 4096)`, by cases on where the range begins (R65). -/
theorem State.raiseData_eq (s : State) (i : Instr) : s.raiseData i =
    { s with
      mode := .halted
        { cause := .dataOutOfBounds, pc0 := s.pc, word := some (encode i), instr := some i,
          addr := some (if s.i.toNat < 4096 then 4096 else s.i.toNat) } } := by
  have haddr : max s.i.toNat memSize = if s.i.toNat < 4096 then 4096 else s.i.toNat := by
    rw [show memSize = 4096 from rfl]
    split <;> omega
  rw [State.raiseData, haddr]
  rfl

end Sys2Proof.Machine
end

section
/-! Memory: self-modifying code, the frame, and the two ends of memory (20_memory.md). -/

namespace Sys2Proof.Machine

/-- Settles O34: registers `k` and `k + 1` are both in the stored range, so the fetch at `I + k` reads their bytes. -/
theorem storedWordIsFetchedNext : Obligations.StoredWordIsFetchedNext := by
  intro x s t k _ h ht hpc hk
  have hcount := s.bulkCount_le x
  have hsucc : (k + 1).toNat = k.toNat + 1 := by
    rw [BitVec.toNat_add, show (1 : Reg).toNat = 1 from rfl]
    omega
  have hhi : t.peek t.pc.toNat = s.getV k := by
    rw [hpc, exec_storeRegs_peek_reg h ht (by omega)]
  have hlo : t.peek (t.pc.toNat + 1) = s.getV (k + 1) := by
    rw [hpc, Nat.add_assoc, ← hsucc, exec_storeRegs_peek_reg h ht (by omega)]
  have hrange : t.pc.toNat ≤ 4094 := by
    obtain ⟨-, rfl⟩ | ⟨hr, -⟩ := exec_storeRegs_next h
    · exact absurd ⟨_, rfl⟩ ht
    · omega
  exact (State.fetch16_eq_some t _).2 ⟨hrange, by rw [hhi, hlo]; rfl⟩

/-- Settles O42: of the kinds of effect, a store alone writes memory. -/
theorem memoryChangesOnlyAtStoredBytes : Obligations.MemoryChangesOnlyAtStoredBytes :=
  fun _ _ _ _ h hbcd hbulk => (exec_effect h).peek_eq hbcd hbulk

/-- Settles O33: each of the four instructions checks its whole range before it reads or writes. -/
theorem dataOutOfBoundsChangesNothing : Obligations.DataOutOfBoundsChangesNothing := by
  intro s ins cnt hins hpos hout
  rw [← s.raiseData_eq ins]
  obtain ⟨x, y, n, rfl, rfl⟩ | ⟨x, rfl, rfl⟩ | ⟨x, hx, hcnt⟩ := hins
  · exact exec_drw_of_outside x y (by omega)
  · exact exec_ldBcd_of_outside x (by omega)
  · have hout : ¬ (s.bulkCount x = 0 ∨ s.i.toNat + s.bulkCount x ≤ 4096) := by
      rw [State.bulkCount, ← hcnt]
      omega
    obtain rfl | rfl := hx
    · exact exec_storeRegs_of_outside hout
    · exact exec_loadRegs_of_outside hout

/-- Settles O35: both bytes of the word lie in memory exactly up to 4094. -/
theorem fetchIsBigEndianAndBounded : Obligations.FetchIsBigEndianAndBounded := by
  refine ⟨fun s hpc => ⟨_, (State.fetch16_eq_some s _).2 ⟨hpc, rfl⟩, append_toNat _ _⟩, fun s hpc hm => ?_⟩
  exact serveStep_of_fetch_none hm ((State.fetch16_eq_none s).2 hpc)

end Sys2Proof.Machine
end

section
/-! SUPPORT. Which words an instruction has (30_encoding.md R96, R97, R101), and that the decoder reads an instruction
from a word exactly where the word is one of them. -/

namespace Sys2Proof

variable {i : Instr} {w : Word}

/-- The words of an instruction: the one that the encoder gives, and for `SHR` and `SHL` one for each value of the
ignored `y` field (30_encoding.md R101). -/
inductive Instr.HasWord : Instr → Word → Prop
  | encode {i : Instr} {w : Word} (wf : i.WellFormed) (h : Sys2Proof.encode i = w) : i.HasWord w
  | shr (x y : Reg) : (Instr.shr x).HasWord (formatXYN 0x8 x y 0x6)
  | shl (x y : Reg) : (Instr.shl x).HasWord (formatXYN 0x8 x y 0xE)

/-! A word of known primary opcode, as each format lays it out. -/

theorem Field.op_eq_ofNat {k : Nat} (hop : (Field.op w).toNat = k) : Field.op w = BitVec.ofNat 4 k := by
  rw [← hop, BitVec.ofNat_toNat, BitVec.setWidth_eq]

theorem formatA_of_op {k : Nat} (hop : (Field.op w).toNat = k) : formatA (BitVec.ofNat 4 k) (Field.nnn w) = w := by
  rw [← Field.op_eq_ofNat hop, ← word_eq_formatA]

theorem formatXK_of_op {k : Nat} (hop : (Field.op w).toNat = k) :
    formatXK (BitVec.ofNat 4 k) (Field.x w) (Field.kk w) = w := by
  rw [← Field.op_eq_ofNat hop, ← word_eq_formatXK]

theorem formatXYN_of_op {k : Nat} (hop : (Field.op w).toNat = k) :
    formatXYN (BitVec.ofNat 4 k) (Field.x w) (Field.y w) (Field.n w) = w := by
  rw [← Field.op_eq_ofNat hop, ← word_eq_formatXYN]

/-! The words of primary opcode 0 (30_encoding.md R96). -/

theorem Instr.wellFormed_sys_iff {nnn : Addr12} : (Instr.sys nnn).WellFormed ↔ nnn ≠ 0x0E0 ∧ nnn ≠ 0x0EE := by
  simp [Instr.WellFormed, Instr.wellFormed]

theorem formatA_inj {op : Nibble} {a b : Addr12} : formatA op a = formatA op b ↔ a = b :=
  ⟨fun h => by rw [← Field.nnn_formatA op a, h, Field.nnn_formatA], congrArg _⟩

theorem decodeOp0_formatA (nnn : Addr12) :
    decodeOp0 (formatA 0x0 nnn) = if nnn = 0x0E0 then .cls else if nnn = 0x0EE then .ret else .sys nnn := by
  simp only [decodeOp0, show (0x00E0 : Word) = formatA 0x0 0x0E0 by decide,
    show (0x00EE : Word) = formatA 0x0 0x0EE by decide, formatA_inj, Field.nnn_formatA]

/-! From a decoded instruction to its words, by primary opcode (30_encoding.md R98). -/

theorem decodeOp0_hasWord (nnn : Addr12) : (decodeOp0 (formatA 0x0 nnn)).HasWord (formatA 0x0 nnn) := by
  rw [decodeOp0_formatA]
  split
  · next h => exact .encode rfl (h ▸ rfl)
  · split
    · next h => exact .encode rfl (h ▸ rfl)
    · next hcls hret => exact .encode (Instr.wellFormed_sys_iff.2 ⟨hcls, hret⟩) rfl

theorem decodeOp8_hasWord {x y : Reg} {n : Nibble} (h : decodeOp8 x y n.toNat = some i) :
    i.HasWord (formatXYN 0x8 x y n) := by
  unfold decodeOp8 at h
  split at h <;> rename_i hn
  case h_10 => cases h
  case h_7 =>
    obtain rfl : n = 0x6 := BitVec.eq_of_toNat_eq hn
    cases h
    exact .shr x y
  case h_9 =>
    obtain rfl : n = 0xE := BitVec.eq_of_toNat_eq hn
    cases h
    exact .shl x y
  all_goals
    cases h
    exact .encode rfl (congrArg (formatXYN 0x8 x y) (BitVec.eq_of_toNat_eq hn.symm))

theorem decodeOpE_hasWord {x : Reg} {kk : Byte} (h : decodeOpE x kk.toNat = some i) :
    i.HasWord (formatXK 0xE x kk) := by
  unfold decodeOpE at h
  split at h <;> rename_i hkk <;> cases h
  all_goals exact .encode rfl (congrArg (formatXK 0xE x) (BitVec.eq_of_toNat_eq hkk.symm))

theorem decodeOpF_hasWord {x : Reg} {kk : Byte} (h : decodeOpF x kk.toNat = some i) :
    i.HasWord (formatXK 0xF x kk) := by
  unfold decodeOpF at h
  split at h <;> rename_i hkk <;> cases h
  all_goals exact .encode rfl (congrArg (formatXK 0xF x) (BitVec.eq_of_toNat_eq hkk.symm))

theorem hasWord_of_decodeWord (h : decodeWord w = some i) : i.HasWord w := by
  unfold decodeWord at h
  split at h <;> rename_i hop
  case h_1 => cases h; exact formatA_of_op hop ▸ decodeOp0_hasWord (Field.nnn w)
  case h_9 => exact formatXYN_of_op hop ▸ decodeOp8_hasWord h
  case h_15 => exact formatXK_of_op hop ▸ decodeOpE_hasWord h
  case h_16 => exact formatXK_of_op hop ▸ decodeOpF_hasWord h
  case h_6 | h_10 =>
    split at h
    · next hn =>
      have hw := formatXYN_of_op hop
      rw [hn] at hw
      cases h
      exact .encode rfl hw
    · cases h
  case h_17 => cases h
  case h_2 | h_3 | h_11 | h_12 => cases h; exact .encode rfl (formatA_of_op hop)
  case h_14 => cases h; exact .encode rfl (formatXYN_of_op hop)
  all_goals cases h; exact .encode rfl (formatXK_of_op hop)

/-! From an instruction's word to the instruction. -/

/-- The round trip, by the format of the instruction's word (30_encoding.md R94, R105). -/
theorem decodeWord_encode (h : i.WellFormed) : decodeWord (encode i) = some i := by
  cases i with
  | cls | ret => rfl
  | sys nnn =>
    obtain ⟨hcls, hret⟩ := Instr.wellFormed_sys_iff.1 h
    have hop0 : decodeOp0 (formatA 0x0 nnn) = .sys nnn := by rw [decodeOp0_formatA, if_neg hcls, if_neg hret]
    simpa [decodeWord, encode] using hop0
  | jp | call | ldI | jpV0 => simp [decodeWord, encode]
  | seByte | sneByte | ldByte | addByte | rnd => simp [decodeWord, encode]
  | skp | sknp => simp [decodeWord, encode, decodeOpE]
  | readDT | waitKey | setDT | setST | addI | ldFont | ldBcd | storeRegs | loadRegs =>
    simp [decodeWord, encode, decodeOpF]
  | seReg | sneReg | drw => simp [decodeWord, encode]
  | ldReg | or | and | xor | addReg | sub | shr | subn | shl => simp [decodeWord, encode, decodeOp8]

/-- The decoder reads an instruction from its words and from no others. -/
theorem decodeWord_eq_some_iff : decodeWord w = some i ↔ i.HasWord w := by
  refine ⟨hasWord_of_decodeWord, fun h => ?_⟩
  cases h with
  | encode wf he => rw [← he, decodeWord_encode wf]
  | shr x y | shl x y => simp [decodeWord, decodeOp8]

/-! The words that no instruction has (30_encoding.md R99). -/

theorem decodeOp8_eq_none_iff {x y : Reg} {n : Nat} (hn : n < 16) :
    decodeOp8 x y n = none ↔ n ∈ [0x8, 0x9, 0xA, 0xB, 0xC, 0xD, 0xF] := by
  unfold decodeOp8
  split
  case h_10 => simp only [imp_false, List.mem_cons, List.not_mem_nil, true_iff] at *; omega
  all_goals simp

theorem decodeOpE_eq_none_iff {x : Reg} {kk : Nat} : decodeOpE x kk = none ↔ kk ∉ [0x9E, 0xA1] := by
  unfold decodeOpE
  split
  case h_3 => simp_all
  all_goals simp

theorem decodeOpF_eq_none_iff {x : Reg} {kk : Nat} :
    decodeOpF x kk = none ↔ kk ∉ [0x07, 0x0A, 0x15, 0x18, 0x1E, 0x29, 0x33, 0x55, 0x65] := by
  unfold decodeOpF
  split
  case h_10 => simp_all
  all_goals simp

end Sys2Proof
end

section
/-! The encoding: the two directions of decoder and encoder, the scan of the descriptor table, and the illegal words
(30_encoding.md). -/

namespace Sys2Proof

/-- Settles O1: the encoder's word is one of the instruction's words, and the decoder reads it back from each. -/
theorem decodeEncodeRoundTrip : Obligations.DecodeEncodeRoundTrip := fun _ => decodeWord_encode

/-- Settles O2, by the list of the words that an instruction has. -/
theorem decodedInstructionHasItsWord : Obligations.DecodedInstructionHasItsWord := by
  refine ⟨fun w i h => ?_, fun x y => ⟨decodeWord_eq_some_iff.2 (.shr x y), decodeWord_eq_some_iff.2 (.shl x y)⟩⟩
  cases decodeWord_eq_some_iff.1 h with
  | encode wf he =>
    subst he
    exact ⟨wf, fun _ => rfl, fun x hx => ⟨0x0, hx ▸ rfl⟩, fun x hx => ⟨0x0, hx ▸ rfl⟩⟩
  | shr x y => exact ⟨rfl, fun hne => absurd rfl (hne x).1, fun | _, rfl => ⟨y, rfl⟩, nofun⟩
  | shl x y => exact ⟨rfl, fun hne => absurd rfl (hne x).2, nofun, fun | _, rfl => ⟨y, rfl⟩⟩

/-- Settles O3: every mask compares the primary opcode, so the scan finds a row of the word's own opcode. -/
theorem decoderFollowsDescriptorTable : Obligations.DecoderFollowsDescriptorTable := map_row_decodeWord

/-- Settles O4, by primary opcode: 5, 8, 9, E and F have illegal words, each by its own low digits. -/
theorem illegalWordsAreExactlyTheListed : Obligations.IllegalWordsAreExactlyTheListed := by
  intro w
  have hn : Field.n w = 0#4 ↔ w.toNat % 16 = 0 := by rw [← Field.n_toNat, ← BitVec.toNat_inj]; rfl
  unfold decodeWord
  rw [Field.op_toNat, Field.n_toNat, Field.kk_toNat]
  split <;> rename_i hop
  case h_6 | h_10 => simp [hop, hn]
  case h_9 => simp [hop, decodeOp8_eq_none_iff (Nat.mod_lt _ _)]
  case h_15 => simp [hop, decodeOpE_eq_none_iff]
  case h_16 => simp [hop, decodeOpF_eq_none_iff]
  case h_17 => have := w.isLt; simp only [imp_false] at *; omega
  all_goals simp [hop]

/-- Settles O5, by running the decoder on the eleven words. -/
theorem wordsOfEachFamilyDecode : Obligations.WordsOfEachFamilyDecode := by
  unfold Obligations.WordsOfEachFamilyDecode
  decide

end Sys2Proof
end

section
/-! SUPPORT. The other branch of each instruction that can raise: its equation where it completes, and `RET`'s on the
empty stack. -/

namespace Sys2Proof.Machine

variable {s : State}

theorem exec_ret_of_nil (h : s.stack = []) : exec .ret s = .next (s.raiseExec .stackUnderflow .ret none) := by
  simp only [exec, execRet, (State.pop_eq_none s).2 h]

theorem exec_ret_of_append {st : List Word} {a : Word} (h : s.stack = st ++ [a]) :
    exec .ret s = .next { s with stack := st, pc := a } := by
  simp only [exec, execRet, (State.pop_eq_some s _ _).2 ⟨st, h, rfl⟩]
  rfl

theorem exec_drw_of_inside (x y : Reg) {n : Nibble} (h : n.toNat = 0 ∨ s.i.toNat + n.toNat ≤ 4096)
    {p : Bool × Surface} (hp : p = plotSprite s.fb (s.getV x).toNat (s.getV y).toNat
      ((List.range n.toNat).map fun k => s.peek (s.i.toNat + k))) :
    exec (.drw x y n) s = .next ({ s.advance with fb := p.2 }.setV Reg.flag (flagByte p.1)) := by
  simp only [exec, execDrw, (State.readBytes_eq_some s _ _ _).2 ⟨h, rfl⟩, hp]

theorem exec_ldBcd_of_inside (x : Reg) (h : s.i.toNat + 3 ≤ 4096) :
    exec (.ldBcd x) s = .next { s with
      pc := s.pc + 2
      mem := Memory.writeBytes s.params.font s.mem s.i.toNat (decimalDigits (s.getV x)) } := by
  simp only [exec, execLdBcd, (State.writeBytes_eq_some s _ _ (decimalDigits (s.getV x))).2 ⟨.inr h, rfl⟩]
  rfl

theorem exec_storeRegs_of_inside {x : Reg} (h : s.bulkCount x = 0 ∨ s.i.toNat + s.bulkCount x ≤ 4096) :
    exec (.storeRegs x) s = .next { s with
      pc := s.pc + 2
      mem := Memory.writeBytes s.params.font s.mem s.i.toNat (s.regBytes (s.bulkCount x)) } := by
  have hw := (State.writeBytes_eq_some s _ s.i.toNat (s.regBytes (s.bulkCount x))).2
    ⟨by rwa [State.regBytes_length], rfl⟩
  simp only [exec, execStoreRegs, hw]
  rfl

theorem exec_loadRegs_of_inside {x : Reg} (h : s.bulkCount x = 0 ∨ s.i.toNat + s.bulkCount x ≤ 4096) :
    exec (.loadRegs x) s =
      .next (s.advance.setRegs 0 ((List.range (s.bulkCount x)).map fun k => s.peek (s.i.toNat + k))) := by
  simp only [exec, execLoadRegs, (State.readBytes_eq_some s _ _ _).2 ⟨h, rfl⟩]

end Sys2Proof.Machine
end

section
/-! The draws reach `RND` alone (40_step_cycle.md R133). -/

namespace Sys2Proof.Machine

variable {s t : State} {i : Instr}

/-- Another count of drawn bytes in place of the state's own. -/
def State.withDraws (s : State) (d : Nat) : State := { s with draws := d }

theorem State.withDraws_skipIf (s : State) (d : Nat) (c : Bool) :
    (s.withDraws d).skipIf c = (s.skipIf c).withDraws d := by
  cases c <;> rfl

theorem State.withDraws_setRegs (s : State) (d k : Nat) (bs : List Byte) :
    (s.withDraws d).setRegs k bs = (s.setRegs k bs).withDraws d := by
  induction bs generalizing s k with
  | nil => rfl
  | cons b bs ih => exact ih (s.setV (BitVec.ofNat 4 k) b) (k + 1)

/-- Which branch an instruction takes, and what it does there, does not depend on the draws; `RND` alone reads them. -/
theorem exec_withDraws (d : Nat) (hrnd : ∀ x kk, i ≠ .rnd x kk) (h : exec i s = .next t) :
    exec i (s.withDraws d) = .next (t.withDraws d) := by
  cases i with
  | rnd x kk => exact absurd rfl (hrnd x kk)
  | ret =>
    obtain ⟨hs, rfl⟩ | ⟨st, a, hs, rfl⟩ := exec_ret_next h
    · exact exec_ret_of_nil hs
    · exact exec_ret_of_append hs
  | call nnn =>
    obtain ⟨hs, rfl⟩ | ⟨hs, rfl⟩ := exec_call_next h
    · exact exec_call_of_full nnn hs
    · exact exec_call_of_lt nnn hs
  | drw x y n =>
    obtain ⟨hr, rfl⟩ | ⟨hr, p, hp, rfl⟩ := exec_drw_next h
    · exact exec_drw_of_outside x y hr
    · exact exec_drw_of_inside (s := s.withDraws d) x y hr hp
  | ldBcd x =>
    obtain ⟨hr, rfl⟩ | ⟨hr, rfl⟩ := exec_ldBcd_next h
    · exact exec_ldBcd_of_outside x hr
    · exact exec_ldBcd_of_inside x hr
  | storeRegs x =>
    obtain ⟨hr, rfl⟩ | ⟨hr, rfl⟩ := exec_storeRegs_next h
    · exact exec_storeRegs_of_outside hr
    · exact exec_storeRegs_of_inside hr
  | loadRegs x =>
    obtain ⟨hr, rfl⟩ | ⟨hr, rfl⟩ := exec_loadRegs_next h
    · exact exec_loadRegs_of_outside hr
    · rw [← State.withDraws_setRegs]
      exact exec_loadRegs_of_inside (s := s.withDraws d) hr
  | seByte | sneByte | seReg | sneReg | skp | sknp =>
    cases h
    exact congrArg Host.Outcome.next (s.advance.withDraws_skipIf d _)
  | _ => cases h; rfl

/-- Settles O56: of the 35 instructions, `RND` alone reads the draws. -/
theorem drawsReachOnlyRandomLoad : Obligations.DrawsReachOnlyRandomLoad := fun _ _ _ d => exec_withDraws d

end Sys2Proof.Machine
end

section
/-! The step cycle: the frame of the event `step`, the wait, and the order of the events (40_step_cycle.md). -/

namespace Sys2Proof.Machine

variable {s t : State}

/-- What neither a raise nor the trace record touches, the event `step` changes only as its instruction does. -/
theorem serveStep_frame {α : Type} {f : State → α} (h : serveStep s = .next t)
    (hraise : ∀ u info, f (State.raise u info) = f u) (hrecord : ∀ u w ins, f (State.recordTrace u w ins) = f u)
    (hexec : ∀ w i u, s.fetch16 = some w → decodeWord w = some i → Effect s i u → f u = f s) : f t = f s := by
  obtain ⟨-, rfl⟩ | ⟨-, -, rfl⟩ | ⟨w, -, -, -, rfl⟩ | ⟨w, i, u, -, hf, hd, he, rfl⟩ := serveStep_next h
  · rfl
  · exact hraise s _
  · exact (hrecord _ w none).trans (hraise s _)
  · exact (hrecord u w (some i)).trans (hexec w i u hf hd (exec_effect he))

/-- Settles O27: of the kinds of effect, the load of a timer alone writes it. -/
theorem stepWritesTimersOnlyByTimerLoads : Obligations.StepWritesTimersOnlyByTimerLoads := by
  refine fun s t h => ⟨fun hne => ?_, fun hne => ?_⟩ <;> by_contra hno
  · exact hne (serveStep_frame h State.raise_dt State.recordTrace_dt fun w i u hf hd he =>
      he.dt_eq fun x hi => hno ⟨w, x, hf, hi ▸ hd⟩)
  · exact hne (serveStep_frame h State.raise_st State.recordTrace_st fun w i u hf hd he =>
      he.st_eq fun x hi => hno ⟨w, x, hf, hi ▸ hd⟩)

theorem serveStep_pending (h : serveStep s = .next t) : t.pending = s.pending :=
  serveStep_frame h State.raise_pending State.recordTrace_pending fun _ _ _ _ _ he =>
    have ⟨_, _, _, hp⟩ := he.unwritten
    hp

/-- No event takes from or adds to those that are pending. -/
theorem serve_pending {e : Event} (h : serve e s = .next t) : t.pending = s.pending := by
  obtain ⟨-, h⟩ | ⟨-, rfl⟩ | ⟨code, -, -, rfl⟩ | ⟨code, -, -, rfl⟩ | ⟨bytes, -, -, rfl⟩ := serve_next h
  · exact serveStep_pending h
  · rfl
  · exact State.completeWait_pending _ code
  · rfl
  · rfl

/-- Settles O38: the step takes the head off the list, and no event changes the rest. -/
theorem stepServesPendingEventsInOrder : Obligations.StepServesPendingEventsInOrder := by
  refine ⟨fun _ => step_of_pending_nil, fun s e rest hp => ?_⟩
  have hstep := step_of_pending_cons hp
  exact ⟨hstep, fun t h => serve_pending (hstep.symm.trans h)⟩

/-- Settles O22: the event `step` acts in the mode Running alone. -/
theorem stepWhileWaitingIsNoOp : Obligations.StepWhileWaitingIsNoOp := fun _ _ hm =>
  serveStep_of_not_running (by rw [hm]; nofun)

/-- Settles O37, by the branch of the cycle that executes. -/
theorem stepRunsTheDecodedInstruction : Obligations.StepRunsTheDecodedInstruction := by
  intro s w ins hm hf hd
  refine ⟨fun t he => serveStep_of_exec hm hf hd he, fun t h => ?_, step_of_pending_nil,
    fun rest => step_of_pending_cons rfl⟩
  rw [serveStep_traceOutput h hm hf, hd]
  rfl

theorem State.completeWait_of_not_waiting (code : Nat) (h : ∀ x, s.mode ≠ .waitingForKey x) :
    s.completeWait code = s := by
  unfold State.completeWait
  split
  · next hm => exact absurd hm (h _)
  · rfl
  · rfl

/-- Settles O47: a step acts in Running alone and a key-down ends a wait alone, so only a load sets the mode. -/
theorem haltedIsLeftOnlyByLoad : Obligations.HaltedIsLeftOnlyByLoad := by
  rintro s t e ⟨info, hm⟩ h
  obtain ⟨rfl, h⟩ | ⟨rfl, rfl⟩ | ⟨code, rfl, -, rfl⟩ | ⟨code, rfl, -, rfl⟩ | ⟨bytes, rfl, -, rfl⟩ := serve_next h
  · cases h.symm.trans (serveStep_of_not_running (by rw [hm]; nofun))
    exact ⟨fun _ => rfl, .inl ⟨rfl, rfl⟩⟩
  · exact ⟨nofun, .inl ⟨rfl, rfl⟩⟩
  · rw [State.completeWait_of_not_waiting (s := { s with keys := s.keys ||| BitVec.twoPow 16 code }) code
      fun x hx => by cases hm.symm.trans hx]
    exact ⟨nofun, .inl ⟨rfl, rfl⟩⟩
  · exact ⟨nofun, .inl ⟨rfl, rfl⟩⟩
  · exact ⟨nofun, .inr ⟨⟨bytes, rfl⟩, rfl⟩⟩

end Sys2Proof.Machine
end

section
/-! Flow control: the jump, the call stack and the register skips (41_flow_control.md). -/

namespace Sys2Proof

theorem Field.op_mask (w : Word) : Field.op (w &&& 0xF000) = Field.op w := by rw [mask_op, Field.op_formatXYN]

/-- The row of `JP` (30_encoding.md R97). -/
theorem decodeWord_of_mask_jp {w : Word} (h : w &&& 0xF000 = 0x1000) : decodeWord w = some (.jp (Field.nnn w)) := by
  have hop : (Field.op w).toNat = 0x1 := by rw [← Field.op_mask, h]; rfl
  exact decodeWord_eq_some_iff.2 (.encode rfl (formatA_of_op hop))

end Sys2Proof

namespace Sys2Proof.Machine

theorem exec_jp (nnn : Addr12) (s : State) : exec (.jp nnn) s = .next { s with pc := nnn.toWord } := rfl

/-- A skip whose test says `p` passes one instruction more exactly where `p` holds. -/
theorem State.advance_skipIf_of_iff (s : State) {c : Bool} {p : Prop} [Decidable p] (h : c = true ↔ p) :
    s.advance.skipIf c = { s with pc := if p then s.pc + 2 + 2 else s.pc + 2 } := by
  by_cases hp : p
  · rw [h.2 hp, if_pos hp]; rfl
  · rw [Bool.eq_false_iff.2 (mt h.1 hp), if_neg hp]; rfl

/-- Settles O6: the jump sets `pc` alone, and from 4095 it is the fetch after it that finds no word. -/
theorem jumpSetsProgramCounter : Obligations.JumpSetsProgramCounter := by
  refine ⟨fun _ => decodeWord_of_mask_jp, exec_jp, fun nnn s hpc => ?_, fun s hm hpc => ?_⟩
  · rw [exec_jp, Addr12.toWord, ← hpc]
  · have hf : s.fetch16 = none := (State.fetch16_eq_none s).2 (by rw [hpc]; decide)
    exact ⟨_, rfl, serveStep_of_fetch_none hm hf⟩

/-- Settles O7, by the equations of the two instructions where they complete. -/
theorem callsPushAndReturnsPop : Obligations.CallsPushAndReturnsPop :=
  ⟨fun nnn _ => exec_call_of_lt nnn, fun _ _ _ => exec_ret_of_append⟩

/-- Settles O8, by the equations of the two instructions where they raise. -/
theorem stackFaultsHalt : Obligations.StackFaultsHalt :=
  ⟨fun nnn _ hsp => ⟨_, rfl, rfl, exec_call_of_full nnn hsp.ge⟩,
    fun _ hsp => ⟨_, rfl, rfl, exec_ret_of_nil (List.length_eq_zero_iff.1 hsp)⟩⟩

/-- Settles O10: each skip tests its two operands for equality or for inequality. -/
theorem skipsCompareRegisters : Obligations.SkipsCompareRegisters := fun _ _ _ s =>
  ⟨congrArg Host.Outcome.next (s.advance_skipIf_of_iff beq_iff_eq),
    congrArg Host.Outcome.next (s.advance_skipIf_of_iff bne_iff_ne),
    congrArg Host.Outcome.next (s.advance_skipIf_of_iff beq_iff_eq),
    congrArg Host.Outcome.next (s.advance_skipIf_of_iff bne_iff_ne)⟩

end Sys2Proof.Machine
end

section
/-! SUPPORT. The flags and the results of the register arithmetic as the spec's pseudocode computes them, and the next
state of an instruction that writes a register, with a flag before it or without, or `I` (42_register_arithmetic.md
R159). -/

namespace Sys2Proof.Machine

variable (s : State)

/-! Results. -/

/-- A word holds a number modulo its range, so reducing the number first changes nothing. -/
theorem ofNat_mod_two_pow (n k : Nat) : BitVec.ofNat n (k % 2 ^ n) = BitVec.ofNat n k :=
  BitVec.eq_of_toNat_eq (by rw [BitVec.toNat_ofNat, BitVec.toNat_ofNat, Nat.mod_mod])

theorem sumByte_eq_mod (a b : Byte) : sumByte a b = BitVec.ofNat 8 ((a.toNat + b.toNat) % 256) :=
  (ofNat_mod_two_pow 8 _).symm

theorem twiceByte_eq_mod (a : Byte) : twiceByte a = BitVec.ofNat 8 (a.toNat * 2 % 256) := by
  rw [twiceByte, Nat.mul_comm]
  exact (ofNat_mod_two_pow 8 _).symm

theorem diffByte_eq_mod (a b : Byte) : diffByte a b = BitVec.ofNat 8 ((256 + a.toNat - b.toNat) % 256) := by
  have ha := a.isLt
  have hb := b.isLt
  apply BitVec.eq_of_toNat_eq
  rw [diffByte, BitVec.toNat_ofInt, BitVec.toNat_ofNat]
  omega

/-! Flags. -/

theorem flagByte_decide (p : Prop) [Decidable p] : flagByte (decide p) = if p then 1 else 0 := by
  by_cases h : p <;> simp [flagByte, h]

theorem flagByte_carryOut (a b : Byte) : flagByte (carryOut a b) = if 255 < a.toNat + b.toNat then 1 else 0 :=
  flagByte_decide _

theorem flagByte_noBorrow (a b : Byte) : flagByte (noBorrow a b) = if b.toNat < a.toNat then 1 else 0 :=
  flagByte_decide _

/-- A flag as a number: 0 or 1. -/
theorem flagByte_eq_ofNat (c : Bool) : flagByte c = BitVec.ofNat 8 c.toNat := by cases c <;> rfl

theorem flagByte_getLsbD (a : Byte) (k : Nat) : flagByte (a.getLsbD k) = BitVec.ofNat 8 (a.toNat / 2 ^ k % 2) := by
  rw [flagByte_eq_ofNat, ← BitVec.testBit_toNat, Nat.toNat_testBit]

theorem flagByte_droppedRight (a : Byte) : flagByte (droppedRight a) = BitVec.ofNat 8 (a.toNat % 2) := by
  rw [droppedRight, flagByte_getLsbD, Nat.pow_zero, Nat.div_one]

theorem flagByte_droppedLeft (a : Byte) : flagByte (droppedLeft a) = BitVec.ofNat 8 (a.toNat / 128) := by
  have hbit : a.toNat / 2 ^ 7 % 2 = a.toNat / 128 := by have := a.isLt; omega
  rw [droppedLeft, flagByte_getLsbD, hbit]

/-! Next states. -/

theorem State.advance_setV_of_eq {x : Reg} {b r : Byte} (hr : b = r) :
    s.advance.setV x b = { s with v := s.v.set x.toNat r x.isLt, pc := s.pc + 2 } := hr ▸ rfl

/-- `VF` is written first, so that with `x = 15` the result is what remains (70_reset_and_hazards.md R310). -/
theorem State.advance_setFlagThen_of_eq {c : Bool} {x : Reg} {b f r : Byte} (hf : flagByte c = f) (hr : b = r) :
    s.advance.setFlagThen c x b = { s with v := (s.v.set 15 f).set x.toNat r x.isLt, pc := s.pc + 2 } := by
  subst hf hr
  rfl

theorem State.advance_setI_of_eq {a r : Word} (hr : a = r) :
    s.advance.setI a = { s with i := r, pc := s.pc + 2 } := hr ▸ rfl

/-- The target of `JP V0, nnn` is not reduced: the sum fits 16 bits (R173). -/
theorem toNat_jpV0_target (nnn : Addr12) (b : Byte) :
    (BitVec.ofNat 16 (nnn.toNat + b.toNat)).toNat = nnn.toNat + b.toNat := by
  have hnnn := nnn.isLt
  have hb := b.isLt
  rw [BitVec.toNat_ofNat]
  exact Nat.mod_eq_of_lt (by omega)

end Sys2Proof.Machine
end

section
/-! Register loads and arithmetic (42_register_arithmetic.md; 44_memory_bcd_font.md R211). -/

namespace Sys2Proof

/-- A row of format XK whose mask compares the primary opcode alone (30_encoding.md R94, R97). -/
theorem decodeWord_of_mask_formatXK {i : Instr} {w m : Word} (h : w &&& 0xF000 = m) (wf : i.WellFormed)
    (he : encode i = formatXK (Field.op m) (Field.x w) (Field.kk w)) : decodeWord w = some i := by
  have hop : Field.op m = Field.op w := by rw [← h, Field.op_mask]
  exact decodeWord_eq_some_iff.2 (.encode wf (by rw [he, hop, ← word_eq_formatXK]))

end Sys2Proof

namespace Sys2Proof.Machine

/-- Settles O11: the two rows' masks compare the primary opcode, and the sum is reduced modulo 256. -/
theorem immediateLoadAndAdd : Obligations.ImmediateLoadAndAdd :=
  ⟨fun _ h => decodeWord_of_mask_formatXK h rfl rfl, fun _ h => decodeWord_of_mask_formatXK h rfl rfl, fun _ _ s =>
    ⟨congrArg Host.Outcome.next (s.advance_setV_of_eq rfl),
      congrArg Host.Outcome.next (s.advance_setV_of_eq (sumByte_eq_mod _ _))⟩⟩

/-- Settles O12: each of the four writes its result, unreduced, to the one register. -/
theorem copyAndBitwiseOperations : Obligations.CopyAndBitwiseOperations := fun _ _ s =>
  ⟨congrArg Host.Outcome.next (s.advance_setV_of_eq rfl), congrArg Host.Outcome.next (s.advance_setV_of_eq rfl),
    congrArg Host.Outcome.next (s.advance_setV_of_eq rfl), congrArg Host.Outcome.next (s.advance_setV_of_eq rfl)⟩

/-- Settles O13: the flag is the carry out, and the sum is reduced modulo 256. -/
theorem addRegistersSetsCarry : Obligations.AddRegistersSetsCarry := fun _ _ s =>
  congrArg Host.Outcome.next (s.advance_setFlagThen_of_eq (flagByte_carryOut _ _) (sumByte_eq_mod _ _))

/-- Settles O14: the flag is the strict comparison, and the difference is reduced modulo 256. -/
theorem subtractionsSetNoBorrow : Obligations.SubtractionsSetNoBorrow := fun _ _ s =>
  ⟨congrArg Host.Outcome.next (s.advance_setFlagThen_of_eq (flagByte_noBorrow _ _) (diffByte_eq_mod _ _)),
    congrArg Host.Outcome.next (s.advance_setFlagThen_of_eq (flagByte_noBorrow _ _) (diffByte_eq_mod _ _))⟩

/-- Settles O15: the flag is bit 0 or bit 7 of the operand, and half of a byte needs no reduction. -/
theorem shiftsSetDroppedBit : Obligations.ShiftsSetDroppedBit := fun _ s =>
  ⟨congrArg Host.Outcome.next (s.advance_setFlagThen_of_eq (flagByte_droppedRight _) rfl),
    congrArg Host.Outcome.next (s.advance_setFlagThen_of_eq (flagByte_droppedLeft _) (twiceByte_eq_mod _))⟩

/-- Settles O16: each of the three writes `I` alone, and `ADD I` reduces its sum modulo 65536. -/
theorem indexRegisterInstructions : Obligations.IndexRegisterInstructions := fun _ _ s =>
  ⟨congrArg Host.Outcome.next (s.advance_setI_of_eq rfl),
    congrArg Host.Outcome.next (s.advance_setI_of_eq (ofNat_mod_two_pow 16 _).symm),
    congrArg Host.Outcome.next (s.advance_setI_of_eq rfl)⟩

/-- Settles O17: the sum of an address and a byte fits 16 bits. -/
theorem jumpWithOffsetAddsUnreduced : Obligations.JumpWithOffsetAddsUnreduced := fun nnn s =>
  ⟨_, rfl, rfl, toNat_jpV0_target nnn (s.getV 0)⟩

/-- Settles O18: whatever byte is drawn, the mask clears the bits outside `kk`. -/
theorem randomByteIsMasked : Obligations.RandomByteIsMasked := by
  refine fun x kk s => ⟨_, rfl, rfl, ?_⟩
  have hclear : Config.draw8 s.draws &&& kk &&& ~~~kk = 0 := by
    rw [BitVec.and_assoc, BitVec.and_not_self]
    exact BitVec.and_zero
  exact (congrArg (· &&& ~~~kk) (State.getV_setV_self _ x _)).trans hclear

end Sys2Proof.Machine
end

section
/-! Timers and keys (43_timer_key.md; 60_exceptions.md R278). -/

namespace Sys2Proof.Machine

variable {s : State}

/-- The keypad decides for a code that names a key. -/
theorem State.isHeld_of_le {b : Byte} (h : b.toNat ≤ 15) : s.isHeld b = s.keys.getLsbD b.toNat := by
  rw [State.isHeld, decide_eq_true h, Bool.true_and]

/-- A code above 15 names no key (decision D17). -/
theorem State.isHeld_of_gt {b : Byte} (h : 15 < b.toNat) : s.isHeld b = false := by
  rw [State.isHeld, decide_eq_false h.not_ge, Bool.false_and]

theorem exec_keySkips_of_held {x : Reg} (h : s.isHeld (s.getV x) = true) :
    exec (.skp x) s = .next { s with pc := s.pc + 2 + 2 } ∧ exec (.sknp x) s = .next { s with pc := s.pc + 2 } := by
  simp only [exec, execSkp, execSknp, h]
  exact ⟨rfl, rfl⟩

theorem exec_keySkips_of_not_held {x : Reg} (h : s.isHeld (s.getV x) = false) :
    exec (.skp x) s = .next { s with pc := s.pc + 2 } ∧ exec (.sknp x) s = .next { s with pc := s.pc + 2 + 2 } := by
  simp only [exec, execSkp, execSknp, h]
  exact ⟨rfl, rfl⟩

theorem State.completeWait_of_waiting {x : Reg} (code : Nat) (h : s.mode = .waitingForKey x) :
    s.completeWait code = { s.setV x (BitVec.ofNat 8 code) with mode := .running } := by
  simp only [State.completeWait, h]

/-- Settles O19: each of the three writes the byte to its one destination. -/
theorem timerInstructionsCopy : Obligations.TimerInstructionsCopy := fun _ s =>
  ⟨congrArg Host.Outcome.next (s.advance_setV_of_eq rfl), rfl, rfl⟩

/-- Settles O20, by whether the code names a key and, where it does, whether the key is held. -/
theorem keySkipsAreComplements : Obligations.KeySkipsAreComplements := by
  refine fun x s => ⟨fun k hk hx hkey => ?_, fun k hx hk hkey => ?_, fun hx => ?_⟩
  · subst hx
    exact exec_keySkips_of_held ((State.isHeld_of_le (Nat.le_of_lt_succ hk)).trans hkey)
  · subst hx
    exact exec_keySkips_of_not_held ((State.isHeld_of_le (Nat.le_of_lt_succ hk)).trans hkey)
  · exact exec_keySkips_of_not_held (State.isHeld_of_gt hx)

/-- Settles O21: a tick and a key-up write neither the mode nor a register, and a key-down completes the wait. -/
theorem keyWaitEndsWithNextKeyDown : Obligations.KeyWaitEndsWithNextKeyDown := by
  refine ⟨fun _ _ => rfl, fun x s code hm hcode => ⟨?tick, ?keyUp, ?keyDown⟩⟩
  case tick => exact ⟨_, rfl, hm, rfl⟩
  case keyUp => exact ⟨_, serve_keyUp_of_lt hcode, hm, rfl⟩
  case keyDown =>
    have hwait := State.completeWait_of_waiting (s := { s with keys := s.keys ||| BitVec.twoPow 16 code }) code hm
    rw [serve_keyDown_of_lt hcode, hwait]
    rfl

end Sys2Proof.Machine
end

section
/-! SUPPORT. What a byte reads as inside and outside a range of stored bytes, and what the bulk moves leave
(20_memory.md R61; 44_memory_bcd_font.md R212 to R214). -/

namespace Sys2Proof.Machine

variable {s t : State}

theorem Memory.read_writeBytes_add (font : Vector Byte 80) (m : List Host.Cell) (a : Nat) {bs : List Byte} {k : Nat}
    (hk : k < bs.length) : Memory.read font (Memory.writeBytes font m a bs) (a + k) = bs[k] := by
  rw [Memory.read_writeBytes, dif_pos (by omega)]
  simp only [Nat.add_sub_cancel_left]

theorem Memory.read_writeBytes_of_outside (font : Vector Byte 80) (m : List Host.Cell) {a a' : Nat} {bs : List Byte}
    (h : a' < a ∨ a + bs.length ≤ a') :
    Memory.read font (Memory.writeBytes font m a bs) a' = Memory.read font m a' := by
  rw [Memory.read_writeBytes, dif_neg (by omega)]

theorem Memory.read_writeBytes_regBytes (font : Vector Byte 80) (m : List Host.Cell) (a : Nat) {cnt : Nat} {r : Reg}
    (hr : r.toNat < cnt) :
    Memory.read font (Memory.writeBytes font m a (s.regBytes cnt)) (a + r.toNat) = s.getV r := by
  rw [Memory.read_writeBytes_add font m a (by rwa [State.regBytes_length]), State.getElem_regBytes,
    BitVec.ofNat_toNat, BitVec.setWidth_eq]

/-- `V[k]` is `f k` for each of the first `cnt` registers, and every other register is as it was. -/
theorem State.setRegs_map_range_getV (s : State) (f : Nat → Byte) {cnt : Nat} (hcnt : cnt ≤ 16) (r : Reg) :
    (s.setRegs 0 ((List.range cnt).map f)).getV r = if r.toNat < cnt then f r.toNat else s.getV r := by
  rw [State.setRegs_getV _ _ _ _ (by simpa using hcnt)]
  simp

theorem toNat_ofNat_digit {d : Nat} (h : d < 10) : (BitVec.ofNat 8 d).toNat = d := by
  rw [BitVec.toNat_ofNat]
  exact Nat.mod_eq_of_lt (by omega)

/-- A bulk store that does not halt had its range in memory, and keeps what determines that range. -/
theorem exec_storeRegs_range {x : Reg} (h : exec (.storeRegs x) s = .next t) (ht : ¬ t.isHalted) :
    t.i = s.i ∧ t.bulkCount x = s.bulkCount x ∧ (s.bulkCount x = 0 ∨ s.i.toNat + s.bulkCount x ≤ 4096) := by
  obtain ⟨-, rfl⟩ | ⟨hrange, rfl⟩ := exec_storeRegs_next h
  · exact absurd ⟨_, rfl⟩ ht
  · exact ⟨rfl, rfl, hrange⟩

end Sys2Proof.Machine
end

section
/-! BCD and bulk moves (44_memory_bcd_font.md R212 to R214). -/

namespace Sys2Proof.Machine

/-- Settles O29: each of the three bytes is a digit, the hundreds of a byte being at most 2. -/
theorem bcdStoresThreeDigits : Obligations.BcdStoresThreeDigits := by
  intro x s hi
  have hbyte := (s.getV x).isLt
  have hdigit {k : Nat} (hk : k < 3) :=
    Memory.read_writeBytes_add s.params.font s.mem s.i.toNat (bs := decimalDigits (s.getV x)) hk
  refine ⟨_, exec_ldBcd_of_inside x (by omega), rfl, ?hundreds, ?tens, ?ones, fun a ha => ?outside⟩
  case hundreds => exact (congrArg BitVec.toNat (hdigit (k := 0) (by decide))).trans (toNat_ofNat_digit (by omega))
  case tens => exact (congrArg BitVec.toNat (hdigit (k := 1) (by decide))).trans (toNat_ofNat_digit (by omega))
  case ones => exact (congrArg BitVec.toNat (hdigit (k := 2) (by decide))).trans (toNat_ofNat_digit (by omega))
  case outside => exact Memory.read_writeBytes_of_outside _ _ ha

/-- Settles O30: the bytes stored are the registers in ascending order, as many as the bulk count. -/
theorem bulkStoreWritesRegisterBytes : Obligations.BulkStoreWritesRegisterBytes := by
  intro x s cnt hcnt hrange
  obtain rfl : cnt = s.bulkCount x := hcnt
  refine ⟨_, exec_storeRegs_of_inside (by omega), rfl, fun r hr => ?stored, fun a ha => ?outside⟩
  case stored => exact Memory.read_writeBytes_regBytes _ _ _ hr
  case outside => exact Memory.read_writeBytes_of_outside _ _ (by rwa [State.regBytes_length])

/-- Settles O31: the bytes read go to the registers in ascending order, as many as the bulk count. -/
theorem bulkLoadReadsRegisterBytes : Obligations.BulkLoadReadsRegisterBytes := by
  intro x s cnt hcnt hrange
  obtain rfl : cnt = s.bulkCount x := hcnt
  exact ⟨_, exec_loadRegs_of_inside (by omega), State.setRegs_eq _ _ _,
    s.advance.setRegs_map_range_getV (fun k => s.peek (s.i.toNat + k)) (s.bulkCount_le x)⟩

/-- Settles O32: the store leaves `I` and the bulk count as they were, so the load has the same range, which is in
memory, and reads the stored bytes back. -/
theorem bulkStoreThenLoadRoundTrips : Obligations.BulkStoreThenLoadRoundTrips := by
  intro x s t u v' _ hstore ht hload
  obtain ⟨hi, hcnt, hrange⟩ := exec_storeRegs_range hstore ht
  obtain ⟨u', hload', hframe, hregs⟩ :=
    bulkLoadReadsRegisterBytes x { t with v := v' } (s.bulkCount x) hcnt.symm (by simp only [hi]; omega)
  obtain rfl : u' = u := Host.Outcome.next.inj (hload'.symm.trans hload)
  have hmode : u'.mode = t.mode := by rw [hframe]
  have hui : u'.i = t.i := by rw [hframe]
  have hback (r : Reg) (hr : r.toNat < s.bulkCount x) : t.peek (t.i.toNat + r.toNat) = s.getV r := by
    rw [hi, exec_storeRegs_peek_reg hstore ht hr]
  exact ⟨by rwa [State.isHalted, hmode], hui.trans hi, fun r => (hregs r).trans (ite_congr rfl (hback r) fun _ => rfl)⟩

end Sys2Proof.Machine
end

section
/-! SUPPORT. The pixels of the display surface: what one plotted pixel does, what a plotted row and sprite do, and which
pixels a sprite covers (45_display.md R230, R231). -/

namespace Sys2Proof.Machine

/-- Coordinates are wrapped before the pixel is read, so wrapping them first changes nothing. -/
@[simp] theorem pixelAt_mod (fb : Surface) (px py : Nat) : pixelAt fb (px % 64) (py % 32) = pixelAt fb px py := by
  simp only [pixelAt, Nat.mod_mod]

theorem pixelAt_of_lt (fb : Surface) {x y : Nat} (hx : x < 64) (hy : y < 32) : pixelAt fb x y = fb[y].getLsbD x := by
  simp only [pixelAt, Nat.mod_eq_of_lt hx, Nat.mod_eq_of_lt hy]

/-- A surface is its pixels. -/
theorem surface_ext {a b : Surface} (h : ∀ x y, x < 64 → y < 32 → pixelAt a x y = pixelAt b x y) : a = b := by
  refine Vector.ext fun y hy => BitVec.eq_of_getLsbD_eq fun x hx => ?_
  rw [← pixelAt_of_lt a hx hy, ← pixelAt_of_lt b hx hy, h x y hx hy]

theorem pixelAt_flipPixel (fb : Surface) (px py : Nat) {x y : Nat} (hx : x < 64) (hy : y < 32) :
    pixelAt (flipPixel fb px py) x y = if x = px % 64 ∧ y = py % 32 then !pixelAt fb x y else pixelAt fb x y := by
  rw [pixelAt_of_lt _ hx hy, pixelAt_of_lt _ hx hy, flipPixel, Vector.getElem_set]
  by_cases hrow : py % 32 = y
  · subst hrow
    by_cases hcol : px % 64 = x
    · subst hcol
      simp [hx]
    · simp [hcol, Ne.symm hcol]
  · simp [hrow, Ne.symm hrow]

theorem pixelAt_plotPixel (fb : Surface) (px py : Nat) (bit : Bool) {x y : Nat} (hx : x < 64) (hy : y < 32) :
    pixelAt (plotPixel fb px py bit).2 x y =
      if x = px % 64 ∧ y = py % 32 then Bool.xor (pixelAt fb x y) bit else pixelAt fb x y := by
  cases bit with
  | false => simp [plotPixel]
  | true => simpa [plotPixel] using pixelAt_flipPixel fb px py hx hy

theorem plotPixel_collides_iff (fb : Surface) (px py : Nat) (bit : Bool) :
    (plotPixel fb px py bit).1 = true ↔ pixelAt fb px py = true ∧ bit = true := by
  simp only [plotPixel, Bool.and_eq_true]

/-- From `a` to `b`, exactly the pixels of `P` flip, and a collision is reported exactly when one was before or a pixel of
`P` was on. -/
structure Flips (P : Nat → Nat → Prop) (a b : Bool × Surface) : Prop where
  pixel : ∀ x y, x < 64 → y < 32 → (pixelAt b.2 x y = pixelAt a.2 x y ↔ ¬ P x y)
  collision : b.1 = true ↔ a.1 = true ∨ ∃ x y, x < 64 ∧ y < 32 ∧ P x y ∧ pixelAt a.2 x y = true

theorem Flips.none {P : Nat → Nat → Prop} (a : Bool × Surface) (h : ∀ x y, ¬ P x y) : Flips P a a where
  pixel x y _ _ := iff_of_true rfl (h x y)
  collision := by simp [h]

/-- Two changes of disjoint sets of pixels make one change of their union: where the second flips a pixel, the first
left it, so both saw it as it was. -/
theorem Flips.union {P Q R : Nat → Nat → Prop} {a b c : Bool × Surface} (hab : Flips P a b) (hbc : Flips Q b c)
    (hdisj : ∀ x y, P x y → ¬ Q x y) (hR : ∀ x y, R x y ↔ P x y ∨ Q x y) : Flips R a c where
  pixel x y hx hy := by
    have hP := hab.pixel x y hx hy
    have hQ := hbc.pixel x y hx hy
    rw [hR]
    by_cases p : P x y
    · rw [hQ.2 (hdisj x y p), hP]
      simp [p]
    · rw [← hP.2 p, hQ]
      simp [p]
  collision := by
    have hkept (x y) (hx : x < 64) (hy : y < 32) (q : Q x y) : pixelAt b.2 x y = pixelAt a.2 x y :=
      (hab.pixel x y hx hy).2 fun p => hdisj x y p q
    rw [hbc.collision, hab.collision, or_assoc]
    refine or_congr Iff.rfl ⟨?_, ?_⟩
    · rintro (⟨x, y, hx, hy, p, hon⟩ | ⟨x, y, hx, hy, q, hon⟩)
      · exact ⟨x, y, hx, hy, (hR x y).2 (.inl p), hon⟩
      · exact ⟨x, y, hx, hy, (hR x y).2 (.inr q), hkept x y hx hy q ▸ hon⟩
    · rintro ⟨x, y, hx, hy, r, hon⟩
      obtain p | q := (hR x y).1 r
      · exact .inl ⟨x, y, hx, hy, p, hon⟩
      · exact .inr ⟨x, y, hx, hy, q, (hkept x y hx hy q).trans hon⟩

/-- Some set bit among `fuel` columns of a sprite row from column `c` on lands on the pixel. -/
def rowCovers (x0 py : Nat) (row : Byte) (fuel c px' py' : Nat) : Prop :=
  ∃ k, k < fuel ∧ row.getLsbD (7 - (c + k)) = true ∧ (x0 + (c + k)) % 64 = px' ∧ py % 32 = py'

/-- Some set bit of the rows, the top one at `py`, lands on the pixel. -/
def rowsCover (x0 py : Nat) (rows : List Byte) (px' py' : Nat) : Prop :=
  ∃ r row, rows[r]? = some row ∧ rowCovers x0 (py + r) row 8 0 px' py'

theorem rowCovers_succ (x0 py : Nat) (row : Byte) (fuel c x y : Nat) :
    rowCovers x0 py row (fuel + 1) c x y ↔
      (row.getLsbD (7 - c) = true ∧ (x0 + c) % 64 = x ∧ py % 32 = y) ∨ rowCovers x0 py row fuel (c + 1) x y := by
  rw [rowCovers]
  refine Nat.or_exists_add_one.symm.trans ?_
  simp [rowCovers, Nat.add_left_comm, Nat.add_comm]

theorem rowsCover_cons (x0 py : Nat) (row : Byte) (rows : List Byte) (x y : Nat) :
    rowsCover x0 py (row :: rows) x y ↔ rowCovers x0 py row 8 0 x y ∨ rowsCover x0 (py + 1) rows x y := by
  rw [rowsCover]
  refine Nat.or_exists_add_one.symm.trans ?_
  simp [rowsCover, Nat.add_left_comm, Nat.add_comm]

theorem plotPixel_flips (acc : Bool × Surface) (px py : Nat) (bit : Bool) :
    Flips (fun x y => bit = true ∧ px % 64 = x ∧ py % 32 = y) acc
      (acc.1 || (plotPixel acc.2 px py bit).1, (plotPixel acc.2 px py bit).2) where
  pixel x y hx hy := by
    rw [pixelAt_plotPixel _ _ _ _ hx hy]
    cases bit <;> simp [eq_comm]
  collision := by
    have hx : px % 64 < 64 := Nat.mod_lt _ (by decide)
    have hy : py % 32 < 32 := Nat.mod_lt _ (by decide)
    rw [Bool.or_eq_true, plotPixel_collides_iff, ← pixelAt_mod]
    refine or_congr Iff.rfl ⟨fun ⟨hon, hbit⟩ => ⟨_, _, hx, hy, ⟨hbit, rfl, rfl⟩, hon⟩, ?_⟩
    rintro ⟨_, _, -, -, ⟨hbit, rfl, rfl⟩, hon⟩
    exact ⟨hon, hbit⟩

/-- A row has at most 8 columns, so no two of them wrap to the same column of the display. -/
theorem plotRow_flips (x0 py : Nat) (row : Byte) (fuel c : Nat) (acc : Bool × Surface) (h : fuel ≤ 8) :
    Flips (rowCovers x0 py row fuel c) acc (plotRow x0 py row fuel c acc) := by
  induction fuel generalizing c acc with
  | zero => exact .none acc fun x y ⟨k, hk, _⟩ => Nat.not_lt_zero k hk
  | succ fuel ih =>
    refine (plotPixel_flips acc (x0 + c) py _).union (ih (c + 1) _ (by omega)) ?_ (rowCovers_succ x0 py row fuel c)
    rintro x y ⟨-, hx, -⟩ ⟨k, hk, -, hx', -⟩
    omega

/-- At most 32 rows are plotted, so no two of them wrap to the same row of the display. -/
theorem plotRows_flips (x0 py : Nat) (rows : List Byte) (acc : Bool × Surface) (h : rows.length ≤ 32) :
    Flips (rowsCover x0 py rows) acc (plotRows x0 py rows acc) := by
  induction rows generalizing py acc with
  | nil => exact .none acc fun x y ⟨r, row, hr, _⟩ => by simp at hr
  | cons row rows ih =>
    rw [List.length_cons] at h
    refine (plotRow_flips x0 py row 8 0 acc le_rfl).union (ih (py + 1) _ (by omega)) ?_ (rowsCover_cons x0 py row rows)
    rintro x y ⟨-, -, -, -, hy⟩ ⟨r, row', hr, -, -, -, -, hy'⟩
    have hlt := (List.getElem?_eq_some_iff.1 hr).1
    omega

/-- The rows that `DRW` reads from memory cover the pixels of its sprite. -/
theorem spriteCovers_eq_rowsCover (s : State) (x y : Reg) (n : Nibble) :
    spriteCovers s x y n = rowsCover (s.getV x).toNat (s.getV y).toNat
      ((List.range n.toNat).map fun k => s.peek (s.i.toNat + k)) := by
  funext px py
  simp [spriteCovers, rowsCover, rowCovers, State.getV, List.getElem?_eq_some_iff, and_assoc]

/-- The sprite that `DRW` reads from memory flips exactly the pixels it covers. -/
theorem plotSprite_flips (s : State) (x y : Reg) (n : Nibble) :
    Flips (spriteCovers s x y n) (false, s.fb) (plotSprite s.fb (s.getV x).toNat (s.getV y).toNat
      ((List.range n.toNat).map fun k => s.peek (s.i.toNat + k))) := by
  have hlen : n.toNat ≤ 32 := n.isLt.le.trans (by decide)
  rw [spriteCovers_eq_rowsCover]
  exact plotRows_flips _ _ _ _ (by simpa using hlen)

theorem spriteCovers_lt {s : State} {x y : Reg} {n : Nibble} {px py : Nat} (h : spriteCovers s x y n px py) :
    px < 64 ∧ py < 32 := by
  obtain ⟨r, c, -, -, -, rfl, rfl⟩ := h
  exact ⟨Nat.mod_lt _ (by decide), Nat.mod_lt _ (by decide)⟩

/-- A covered pixel is on the display, which its bounds then need not say. -/
theorem exists_lt_spriteCovers_iff {s : State} {x y : Reg} {n : Nibble} {p : Nat → Nat → Prop} :
    (∃ px py, px < 64 ∧ py < 32 ∧ spriteCovers s x y n px py ∧ p px py) ↔
      ∃ px py, spriteCovers s x y n px py ∧ p px py :=
  exists₂_congr fun _ _ => ⟨fun ⟨_, _, h⟩ => h, fun h => ⟨(spriteCovers_lt h.1).1, (spriteCovers_lt h.1).2, h⟩⟩

theorem flagByte_eq_one_iff (c : Bool) : flagByte c = 1 ↔ c = true := by cases c <;> decide

theorem flagByte_eq_one_or_zero (c : Bool) : flagByte c = 1 ∨ flagByte c = 0 := by cases c <;> decide

theorem State.setV_flag_getElem (s : State) (b : Byte) : (s.setV Reg.flag b).v[15] = b :=
  Vector.getElem_set_self _

/-- What a completed draw writes moves the sprite only where a coordinate is `VF`. -/
theorem spriteCovers_of_drawn {s t : State} {x y : Reg} {n : Nibble} {b : Byte} (hx : x ≠ 15) (hy : y ≠ 15)
    (ht : t = { s with pc := s.pc + 2, fb := t.fb, v := s.v.set 15 b }) :
    spriteCovers t x y n = spriteCovers s x y n := by
  rw [ht]
  funext px py
  have hx' : 15 ≠ x.toNat := fun h => hx (BitVec.eq_of_toNat_eq h.symm)
  have hy' : 15 ≠ y.toNat := fun h => hy (BitVec.eq_of_toNat_eq h.symm)
  simp only [spriteCovers, Vector.getElem_set_ne _ _ hx', Vector.getElem_set_ne _ _ hy']
  rfl

end Sys2Proof.Machine
end

section
/-! The display (45_display.md R230 to R234). -/

namespace Sys2Proof.Machine

/-- Settles O48, by cases on the plotted bit. -/
theorem plotPixelXorsOneWrappedPixel : Obligations.PlotPixelXorsOneWrappedPixel := by
  intro fb px py bit
  rw [pixelAt_mod]
  exact ⟨plotPixel_collides_iff fb px py bit, fun x y hx hy => pixelAt_plotPixel fb px py bit hx hy⟩

/-- Settles O49: the sprite flips exactly the pixels it covers, and `VF` holds its collision flag. -/
theorem drawFlipsExactlyTheCoveredPixels : Obligations.DrawFlipsExactlyTheCoveredPixels := by
  intro x y n s hrange
  have hin : n.toNat = 0 ∨ s.i.toNat + n.toNat ≤ 4096 := hrange.imp (fun h => by rw [h]; rfl) (by omega)
  obtain ⟨hpixel, hcollision⟩ := plotSprite_flips s x y n
  refine ⟨_, exec_drw_of_inside x y hin rfl, ?frame, hpixel, ?bit, ?collision⟩ <;> rw [State.setV_flag_getElem]
  case frame => rfl
  case bit => exact flagByte_eq_one_or_zero _
  case collision => exact (flagByte_eq_one_iff _).trans (by simpa using hcollision)

theorem eq_of_both_flip_or_neither {a b c : Bool} (h : c = b ↔ b = a) : c = a := by
  revert a b c
  decide

/-- A draw that leaves memory halts, and the same draw again leaves the display as it still is. -/
theorem exec_drw_twice_of_outside {x y : Reg} {n : Nibble} {s t u : State}
    (h : ¬ (n.toNat = 0 ∨ s.i.toNat + n.toNat ≤ 4096)) (hst : exec (.drw x y n) s = .next t)
    (htu : exec (.drw x y n) t = .next u) : t.isHalted ∧ u.fb = s.fb := by
  obtain rfl := Host.Outcome.next.inj ((exec_drw_of_outside x y h).symm.trans hst)
  obtain rfl := Host.Outcome.next.inj ((exec_drw_of_outside (s := s.raiseData (.drw x y n)) x y h).symm.trans htu)
  exact ⟨⟨_, rfl⟩, rfl⟩

/-- Settles O50: the first draw leaves the sprite where it was, so the second flips the same pixels back, each from the
opposite of what it was; a draw that halts leaves the display, and then so does the second. -/
theorem drawingTwiceRestoresTheDisplay : Obligations.DrawingTwiceRestoresTheDisplay := by
  intro x y n s t u hx hy hst htu
  by_cases hin : n.toNat = 0 ∨ s.i.toNat + n.toNat ≤ 4096
  case neg =>
    obtain ⟨hhalt, hfb⟩ := exec_drw_twice_of_outside hin hst htu
    exact ⟨hfb, fun _ ht => absurd hhalt ht⟩
  have hrange : n = 0 ∨ s.i.toNat + n.toNat - 1 ≤ 4095 := hin.imp BitVec.eq_of_toNat_eq (by omega)
  obtain ⟨t, hst', ht, hflip, hbit, hcol⟩ := drawFlipsExactlyTheCoveredPixels x y n s hrange
  obtain rfl := Host.Outcome.next.inj (hst'.symm.trans hst)
  have hi : t.i = s.i := by rw [ht]
  obtain ⟨u, htu', -, hflip', -, hcol'⟩ := drawFlipsExactlyTheCoveredPixels x y n t (by rwa [hi])
  obtain rfl := Host.Outcome.next.inj (htu'.symm.trans htu)
  rw [spriteCovers_of_drawn hx hy ht] at hflip' hcol'
  rw [exists_lt_spriteCovers_iff] at hcol hcol'
  have hrestored : u.fb = s.fb := surface_ext fun px py hpx hpy =>
    eq_of_both_flip_or_neither ((hflip' px py hpx hpy).trans (hflip px py hpx hpy).symm)
  refine ⟨hrestored, fun _ _ => ⟨?first, hcol'.trans (exists₂_congr fun px py => and_congr_right fun hcov => ?second)⟩⟩
  case first =>
    have hzero : t.v[15] = 0 ↔ ¬ t.v[15] = 1 := by obtain h | h := hbit <;> simp [h]
    rw [hzero, hcol]
    simp
  case second =>
    obtain ⟨hpx, hpy⟩ := spriteCovers_lt hcov
    have hflipped : pixelAt t.fb px py ≠ pixelAt s.fb px py := fun h => (hflip px py hpx hpy).1 h hcov
    rw [Bool.eq_not.2 hflipped, Bool.not_eq_true']

/-- Settles O51: every pixel of the clear display is off. -/
theorem clearScreenClearsEveryPixel : Obligations.ClearScreenClearsEveryPixel :=
  ⟨by decide, fun _ => ⟨_, rfl, rfl, fun x y _ _ => pixelAt_clearSurface x y⟩⟩

end Sys2Proof.Machine
end

section
/-! The no-op: the words of `SYS` and its next state (46_noop.md R250). -/

namespace Sys2Proof

/-- The row of `SYS` (30_encoding.md R97): its address is one of a well-formed `SYS`, since the word is neither of the two
exact ones. -/
theorem decodeWord_of_mask_sys {w : Word} (h : w &&& 0xF000 = 0x0000) (hcls : w ≠ 0x00E0) (hret : w ≠ 0x00EE) :
    decodeWord w = some (.sys (Field.nnn w)) := by
  have hop : (Field.op w).toNat = 0x0 := by rw [← Field.op_mask, h]; rfl
  have hword : formatA 0x0 (Field.nnn w) = w := formatA_of_op hop
  have hwf : (Instr.sys (Field.nnn w)).WellFormed := Instr.wellFormed_sys_iff.2
    ⟨fun hn => hcls (by rw [← hword, hn]; rfl), fun hn => hret (by rw [← hword, hn]; rfl)⟩
  exact decodeWord_eq_some_iff.2 (.encode hwf hword)

end Sys2Proof

namespace Sys2Proof.Machine

theorem exec_sys (nnn : Addr12) (s : State) : exec (.sys nnn) s = .next { s with pc := s.pc + 2 } := rfl

/-- Settles O52: a word of primary opcode 0 that is not `CLS` or `RET` is the word of the `SYS` of its own address. -/
theorem sysOnlyAdvances : Obligations.SysOnlyAdvances := ⟨fun _ => decodeWord_of_mask_sys, exec_sys⟩

end Sys2Proof.Machine
end

section
/-! SUPPORT. The fatal conditions of the execute phase as one relation, and that an instruction raises one or goes on
(60_exceptions.md R261, R266, R268, R271). -/

namespace Sys2Proof

variable {i : Instr} {w : Word}

/-- An instruction with one word is encoded by the word that was fetched (log 6): the shifts alone have more (R101). -/
theorem encode_eq_of_decodeWord (h : decodeWord w = some i) (hshr : ∀ x, i ≠ .shr x) (hshl : ∀ x, i ≠ .shl x) :
    encode i = w := by
  cases decodeWord_eq_some_iff.1 h with
  | encode _ he => exact he
  | shr x => exact absurd rfl (hshr x)
  | shl x => exact absurd rfl (hshl x)

end Sys2Proof

namespace Sys2Proof.Machine

variable {s t : State} {i : Instr} {cause : Cause} {addr : Option Nat}

/-- The instruction accesses `cnt` bytes of data memory from `I` on (R266). -/
def State.DataCount (s : State) (i : Instr) (cnt : Nat) : Prop :=
  (∃ x y n, i = .drw x y n ∧ cnt = n.toNat) ∨ (∃ x, i = .ldBcd x ∧ cnt = 3) ∨
    ∃ x, (i = .storeRegs x ∨ i = .loadRegs x) ∧ cnt = s.bulkCount x

theorem State.DataCount.accessesData {cnt : Nat} (h : s.DataCount i cnt) : accessesData i := by
  obtain ⟨x, y, n, hi, -⟩ | ⟨x, hi, -⟩ | ⟨x, hi, -⟩ := h
  · exact .inl ⟨x, y, n, hi⟩
  · exact .inr ⟨x, .inl hi⟩
  · exact .inr ⟨x, .inr hi⟩

/-- The instruction meets a fatal condition of the execute phase, with its cause and offending address (R261). -/
inductive State.Raises (s : State) : Instr → Cause → Option Nat → Prop
  | call {nnn : Addr12} (full : 16 ≤ s.sp) : s.Raises (.call nnn) .stackOverflow none
  | ret (empty : s.sp = 0) : s.Raises .ret .stackUnderflow none
  | data {i : Instr} {cnt : Nat} (count : s.DataCount i cnt) (outside : ¬ (cnt = 0 ∨ s.i.toNat + cnt ≤ 4096)) :
      s.Raises i .dataOutOfBounds (some (if s.i.toNat < 4096 then 4096 else s.i.toNat))

/-- An instruction that meets a fatal condition raises it. -/
theorem State.Raises.exec_eq (h : s.Raises i cause addr) : exec i s = .next (s.raiseExec cause i addr) := by
  cases h with
  | call full => exact exec_call_of_full _ full
  | ret empty => exact exec_ret_of_nil (List.length_eq_zero_iff.1 empty)
  | @data _ cnt count outside => exact dataOutOfBoundsChangesNothing s i cnt count (by omega) (by omega)

/-- An instruction meets a fatal condition, or it has a next state and does not halt the core. -/
theorem exec_raises_or_goes_on (i : Instr) (s : State) :
    (∃ cause addr, s.Raises i cause addr) ∨ ∃ t, exec i s = .next t ∧ (t.isHalted → s.isHalted) := by
  cases i with
  | ret =>
    obtain hs | ⟨st, a, hs⟩ := s.stack.eq_nil_or_concat'
    · exact .inl ⟨_, _, .ret (List.length_eq_zero_iff.2 hs)⟩
    · exact .inr ⟨_, exec_ret_of_append hs, id⟩
  | call nnn =>
    obtain hs | hs := Nat.lt_or_ge s.sp 16
    · exact .inr ⟨_, exec_call_of_lt nnn hs, id⟩
    · exact .inl ⟨_, _, .call hs⟩
  | drw x y n =>
    by_cases hr : n.toNat = 0 ∨ s.i.toNat + n.toNat ≤ 4096
    · exact .inr ⟨_, exec_drw_of_inside x y hr rfl, id⟩
    · exact .inl ⟨_, _, .data (.inl ⟨x, y, n, rfl, rfl⟩) hr⟩
  | ldBcd x =>
    by_cases hr : s.i.toNat + 3 ≤ 4096
    · exact .inr ⟨_, exec_ldBcd_of_inside x hr, id⟩
    · exact .inl ⟨_, _, .data (.inr (.inl ⟨x, rfl, rfl⟩)) (by omega)⟩
  | storeRegs x =>
    by_cases hr : s.bulkCount x = 0 ∨ s.i.toNat + s.bulkCount x ≤ 4096
    · exact .inr ⟨_, exec_storeRegs_of_inside hr, id⟩
    · exact .inl ⟨_, _, .data (.inr (.inr ⟨x, .inl rfl, rfl⟩)) hr⟩
  | loadRegs x =>
    by_cases hr : s.bulkCount x = 0 ∨ s.i.toNat + s.bulkCount x ≤ 4096
    · exact .inr ⟨_, exec_loadRegs_of_inside hr, by rw [State.setRegs_eq]; exact id⟩
    · exact .inl ⟨_, _, .data (.inr (.inr ⟨x, .inr rfl, rfl⟩)) hr⟩
  | waitKey => exact .inr ⟨_, rfl, nofun⟩
  | seByte | sneByte | seReg | sneReg | skp | sknp =>
    exact .inr ⟨_, rfl, fun ⟨info, h⟩ => ⟨info, (s.advance.skipIf_mode _).symm.trans h⟩⟩
  | _ => exact .inr ⟨_, rfl, id⟩

/-- Outside the mode Halted, an instruction that halts the core has raised the fatal condition that it met. -/
theorem exec_raises_of_halted (hs : ¬ s.isHalted) (h : exec i s = .next t) (ht : t.isHalted) :
    ∃ cause addr, s.Raises i cause addr ∧ t = s.raiseExec cause i addr := by
  obtain ⟨cause, addr, hraise⟩ | ⟨u, hu, hmode⟩ := exec_raises_or_goes_on i s
  · exact ⟨cause, addr, hraise, Host.Outcome.next.inj (h.symm.trans hraise.exec_eq)⟩
  · cases hu.symm.trans h
    exact absurd (hmode ht) hs

theorem exec_halts_iff_raises (hs : ¬ s.isHalted) :
    (∃ t, exec i s = .next t ∧ t.isHalted) ↔ ∃ cause addr, s.Raises i cause addr := by
  constructor
  · rintro ⟨t, h, ht⟩
    obtain ⟨cause, addr, hraise, -⟩ := exec_raises_of_halted hs h ht
    exact ⟨cause, addr, hraise⟩
  · rintro ⟨cause, addr, hraise⟩
    exact ⟨_, hraise.exec_eq, _, rfl⟩

theorem exec_exists_next (i : Instr) (s : State) : ∃ t, exec i s = .next t := by
  obtain ⟨cause, addr, hraise⟩ | ⟨t, ht, -⟩ := exec_raises_or_goes_on i s
  · exact ⟨_, hraise.exec_eq⟩
  · exact ⟨t, ht⟩

/-- The code of the cause tells the instruction, and the address is with code 5 alone (R261, R265, R269). -/
theorem State.Raises.code_spec (h : s.Raises i cause addr) :
    cause.code ≠ 1 ∧ cause.code ≠ 2 ∧ (cause.code = 3 ↔ ∃ nnn, i = .call nnn) ∧ (cause.code = 4 ↔ i = .ret) ∧
    (cause.code = 5 ↔ accessesData i) ∧
    addr = if cause.code = 5 then some (if s.i.toNat < 4096 then 4096 else s.i.toNat) else none := by
  cases h with
  | call => simp [Cause.code, accessesData]
  | ret => simp [Cause.code, accessesData]
  | data count =>
    obtain ⟨x, y, n, rfl⟩ | ⟨x, rfl | rfl | rfl⟩ := count.accessesData <;> simp [Cause.code, accessesData]

/-- An instruction that can raise is no shift, so the word of its record is the fetched one (log 6). -/
theorem State.Raises.encode_eq {w : Word} (h : s.Raises i cause addr) (hd : decodeWord w = some i) : encode i = w := by
  cases h with
  | call | ret => exact encode_eq_of_decodeWord hd nofun nofun
  | data count =>
    obtain ⟨x, y, n, rfl⟩ | ⟨x, rfl | rfl | rfl⟩ := count.accessesData <;>
      exact encode_eq_of_decodeWord hd nofun nofun

end Sys2Proof.Machine
end

section
/-! SUPPORT. What the events do: the tick on a timer as arithmetic, the key events on the keypad, the events that are
refused by name, and the step that always has a next state (60_exceptions.md R276 to R280). -/

namespace Sys2Proof.Machine

variable {s : State}

theorem countDown_eq_ofNat_sub (b : Byte) : countDown b = BitVec.ofNat 8 (b.toNat - 1) := by
  unfold countDown
  split
  · next h => rw [h]; rfl
  · next h => bv_omega

theorem countDown_eq_ite (b : Byte) : countDown b = if 0 < b.toNat then BitVec.ofNat 8 (b.toNat - 1) else b := by
  rw [countDown_eq_ofNat_sub]
  split
  · rfl
  · exact BitVec.eq_of_toNat_eq (by rw [BitVec.toNat_ofNat]; omega)

/-- Ticks after the first tick count on from the timer that it left. -/
theorem ofNat_countDown_sub (b : Byte) (n : Nat) :
    BitVec.ofNat 8 ((countDown b).toNat - n) = BitVec.ofNat 8 (b.toNat - (n + 1)) := by
  have hb := b.isLt
  rw [countDown_eq_ofNat_sub, BitVec.toNat_ofNat, Nat.mod_eq_of_lt (by omega), Nat.sub_sub, Nat.add_comm 1]

theorem getLsbD_or_twoPow (keys : BitVec 16) {code k : Nat} (hk : k < 16) :
    (keys ||| BitVec.twoPow 16 code).getLsbD k = (keys.getLsbD k || decide (k = code)) := by
  simp [hk, eq_comm]

theorem getLsbD_and_not_twoPow (keys : BitVec 16) {code k : Nat} (hk : k < 16) :
    (keys &&& ~~~BitVec.twoPow 16 code).getLsbD k = (keys.getLsbD k && decide (k ≠ code)) := by
  simp [hk, eq_comm]

theorem and_not_twoPow_eq_self {keys : BitVec 16} {code : Nat} (h : keys.getLsbD code = false) :
    keys &&& ~~~BitVec.twoPow 16 code = keys := by
  refine BitVec.eq_of_getLsbD_eq fun k hk => ?_
  rw [getLsbD_and_not_twoPow keys hk]
  by_cases hc : k = code
  · rw [hc, h, Bool.false_and]
  · rw [decide_eq_true hc, Bool.and_true]

theorem serve_keyDown_of_gt {code : Nat} (h : 15 < code) :
    serve (.reportKeyDown code) s = .refused (.keyCodeOutOfRange code) := if_neg (Nat.not_lt.2 h)

theorem serve_keyUp_of_gt {code : Nat} (h : 15 < code) :
    serve (.reportKeyUp code) s = .refused (.keyCodeOutOfRange code) := if_neg (Nat.not_lt.2 h)

theorem serve_load_of_gt {bytes : List Byte} (h : 3584 < bytes.length) :
    serve (.load bytes) s = .refused (.programTooLong bytes.length) := if_neg h.not_ge

/-- The event `step` has a next state in each branch of the cycle (40_step_cycle.md R124). -/
theorem serveStep_exists_next (s : State) : ∃ t, serveStep s = .next t := by
  by_cases hm : s.mode = .running
  case neg => exact ⟨s, serveStep_of_not_running hm⟩
  cases hf : s.fetch16 with
  | none => exact ⟨_, serveStep_of_fetch_none hm hf⟩
  | some w =>
    cases hd : decodeWord w with
    | none => exact ⟨_, serveStep_of_decode_none hm hf hd⟩
    | some i =>
      obtain ⟨t, ht⟩ := exec_exists_next i s
      exact ⟨_, serveStep_of_exec hm hf hd ht⟩

end Sys2Proof.Machine
end

section
/-! Fatal conditions: when an instruction halts the core, and the record it leaves (60_exceptions.md R261 to R271,
R284). -/

namespace Sys2Proof.Machine

theorem State.haltReport_eq_some_iff (s : State) (info : FaultRecord) :
    s.haltReport = some info ↔ s.mode = .halted info := by
  unfold State.haltReport
  cases s.mode <;> simp

/-- Settles O39: the raise where it meets a fatal condition, the completed instruction elsewhere. -/
theorem everyInstructionAnswersNext : Obligations.EveryInstructionAnswersNext := exec_exists_next

/-- Settles O36: the branch of the cycle in which no descriptor matches. -/
theorem unimplementedWordHalts : Obligations.UnimplementedWordHalts := fun _ _ => serveStep_of_decode_none

/-- Settles O44: the instruction has raised, and a raise changes the mode alone. -/
theorem fatalConditionsArePrecise : Obligations.FatalConditionsArePrecise := by
  intro i s t hs h ht
  obtain ⟨cause, addr, -, rfl⟩ := exec_raises_of_halted hs h ht
  rfl

/-- Settles O45: an instruction halts the core exactly by a raise, and the list of R261 is `State.Raises` written out. -/
theorem instructionsHaltExactlyWhenListed : Obligations.InstructionsHaltExactlyWhenListed := by
  refine fun i s hs => (exec_halts_iff_raises hs).trans ⟨?listed, ?raises⟩
  case listed =>
    rintro ⟨cause, addr, hraise⟩
    cases hraise with
    | call full => exact .inl ⟨_, rfl, full⟩
    | ret empty => exact .inr (.inl ⟨rfl, empty⟩)
    | data count outside =>
      obtain ⟨x, y, n, hi, rfl⟩ | ⟨x, hi, rfl⟩ | ⟨x, hi, rfl⟩ := count
      · exact .inr (.inr (.inl ⟨x, y, n, hi, fun hn => outside (.inl (congrArg BitVec.toNat hn)), by omega⟩))
      · exact .inr (.inr (.inr (.inl ⟨x, hi, by omega⟩)))
      · exact .inr (.inr (.inr (.inr ⟨x, hi, by omega, by omega⟩)))
  case raises =>
    rintro (⟨nnn, rfl, hsp⟩ | ⟨rfl, hsp⟩ | ⟨x, y, n, hi, hn, hr⟩ | ⟨x, hi, hr⟩ | ⟨x, hi, hpos, hr⟩)
    · exact ⟨_, _, .call hsp⟩
    · exact ⟨_, _, .ret hsp⟩
    · have hn : n.toNat ≠ 0 := fun e => hn (BitVec.eq_of_toNat_eq e)
      exact ⟨_, _, .data (.inl ⟨x, y, n, hi, rfl⟩) (by omega)⟩
    · exact ⟨_, _, .data (.inr (.inl ⟨x, hi, rfl⟩)) (by omega)⟩
    · exact ⟨_, _, .data (.inr (.inr ⟨x, hi, rfl⟩)) (by omega)⟩

/-- Settles O46, by the phase that raised: fetch, decode or execute. -/
theorem faultRecordNamesTheFetchedWord : Obligations.FaultRecordNamesTheFetchedWord := by
  refine ⟨State.haltReport_eq_some_iff, fun s t info hm h hreport => ?_⟩
  have hinfo := (t.haltReport_eq_some_iff info).1 hreport
  obtain ⟨hne, -⟩ | ⟨-, hf, rfl⟩ | ⟨w, -, hf, hd, rfl⟩ | ⟨w, i, u, -, hf, hd, he, rfl⟩ := serveStep_next h
  · exact absurd hm hne
  · cases hinfo
    simp [hf, Cause.code]
  · cases hinfo
    simp [hf, hd, Cause.code]
  · have hs : ¬ s.isHalted := fun ⟨_, hhalt⟩ => by cases hm.symm.trans hhalt
    obtain ⟨cause, addr, hraise, rfl⟩ := exec_raises_of_halted hs he ⟨info, hinfo⟩
    cases hinfo
    obtain ⟨h1, h2, h3, h4, h5, haddr⟩ := hraise.code_spec
    simp [hf, hd, hraise.encode_eq hd, h1, h2, h3, h4, h5, haddr]

end Sys2Proof.Machine
end

section
/-! The events: ticks, keys, sound, and the events without a meaning (60_exceptions.md R276 to R281, R285). -/

namespace Sys2Proof.Machine

/-- Settles O25: the two timers, each by the one count. -/
theorem tickCountsBothTimersDown : Obligations.TickCountsBothTimersDown := by
  intro s
  rw [← countDown_eq_ite, ← countDown_eq_ite]
  rfl

/-- Settles O26, by induction on the ticks: the first one takes one off each timer, the others the rest. -/
theorem manyTicksClampTimersAtZero : Obligations.ManyTicksClampTimersAtZero := by
  intro n s hp
  induction n generalizing s with
  | zero =>
    have hs : { s with pending := [] } = s := by rw [← show s.pending = [] from hp]
    simp only [Host.Core.run, Nat.sub_zero, BitVec.ofNat_toNat, BitVec.setWidth_eq, hs]
  | succ n ih =>
    have hstep : core.step s = .next
        { s with dt := countDown s.dt, st := countDown s.st, pending := List.replicate n .tick60Hz } :=
      step_of_pending_cons hp
    simp only [Host.Core.run, hstep]
    refine (ih _ rfl).trans ?_
    simp only [ofNat_countDown_sub]

/-- Settles O23: no wait is there to complete, so the keypad alone changes. -/
theorem keyDownOutsideWaitSetsItsBit : Obligations.KeyDownOutsideWaitSetsItsBit := by
  intro s code hcode hm
  have hwait := State.completeWait_of_not_waiting (s := { s with keys := s.keys ||| BitVec.twoPow 16 code }) code hm
  exact ⟨_, (serve_keyDown_of_lt hcode).trans (congrArg _ hwait), rfl, fun k hk => getLsbD_or_twoPow s.keys hk⟩

/-- Settles O24: the keypad alone changes, and not even it where the bit is clear. -/
theorem keyUpClearsItsBit : Obligations.KeyUpClearsItsBit := fun s _ hcode =>
  ⟨_, serve_keyUp_of_lt hcode, rfl, fun _ hk => getLsbD_and_not_twoPow s.keys hk,
    fun hclear => by rw [and_not_twoPow_eq_self hclear]⟩

theorem State.soundActive_iff (s : State) : s.soundActive = true ↔ s.st ≠ 0 := bne_iff_ne

/-- Settles O28: each of the events sets `ST`, and the output is whether `ST` is not 0. -/
theorem soundActiveExactlyWhileSoundTimerRuns : Obligations.SoundActiveExactlyWhileSoundTimerRuns := by
  refine ⟨State.soundActive_iff, fun x s => ⟨_, rfl, State.soundActive_iff _⟩,
    fun s => ⟨_, rfl, fun h => ?off, fun h => ?on⟩, fun bytes s hb => ⟨_, serve_load_of_le hb, rfl⟩⟩
  case off => simp [State.soundActive, h, countDown]
  case on =>
    have hne : countDown s.st ≠ 0 := by rw [countDown_eq_ofNat_sub]; bv_omega
    exact (State.soundActive_iff _).2 hne

/-- Settles O40: the refused events by name, and for every other event the next state that it has. -/
theorem stepStopsOnlyOnMeaninglessEvents : Obligations.StepStopsOnlyOnMeaninglessEvents := by
  refine fun s => ⟨?keys, fun bytes rest hb hp => (step_of_pending_cons hp).trans (serve_load_of_gt hb), ?others⟩
  case keys =>
    rintro code rest hcode (hp | hp)
    · exact (step_of_pending_cons hp).trans (serve_keyDown_of_gt hcode)
    · exact (step_of_pending_cons hp).trans (serve_keyUp_of_gt hcode)
  case others =>
    intro hkeys hload
    cases hp : s.pending with
    | nil => rw [step_of_pending_nil hp]; exact serveStep_exists_next s
    | cons e rest =>
      rw [step_of_pending_cons hp]
      cases e with
      | step => exact serveStep_exists_next _
      | tick60Hz => exact ⟨_, rfl⟩
      | reportKeyDown code => exact ⟨_, serve_keyDown_of_lt (Nat.lt_succ_of_le (hkeys code rest (.inl hp)))⟩
      | reportKeyUp code => exact ⟨_, serve_keyUp_of_lt (Nat.lt_succ_of_le (hkeys code rest (.inr hp)))⟩
      | load bytes => exact ⟨_, serve_load_of_le (hload bytes rest hp)⟩

end Sys2Proof.Machine
end

section
/-! Reset and load: what memory reads as after a load, the state that a load leaves, and the invariant at reset
(70_reset_and_hazards.md R301, R302). -/

namespace Sys2Proof.Machine

/-- The program lies from 512 on (20_memory.md R67). -/
theorem State.load_peek_program (s : State) {bytes : List Byte} {k : Nat} (h : k < bytes.length) :
    (s.load bytes).peek (512 + k) = bytes[k] := Memory.read_writeBytes_add s.params.font [] progBase h

/-- Outside the program a load leaves the contents of an unlisted address (20_memory.md R67). -/
theorem State.load_peek_of_outside (s : State) {bytes : List Byte} {a : Nat} (h : a < 512 ∨ 512 + bytes.length ≤ a) :
    (s.load bytes).peek a = resetByte s.params.font a := Memory.read_writeBytes_of_outside s.params.font [] h

/-- Settles O54: the registers are those of the reset state, and every address lies in the program or outside it, where
the font ends at 80. -/
theorem loadLeavesTheResetState : Obligations.LoadLeavesTheResetState := by
  intro bytes s hlen
  refine ⟨s.load bytes, serve_load_of_le hlen, fun r => Vector.getElem_replicate r.isLt, rfl, rfl, rfl, rfl, rfl,
    pixelAt_clearSurface, rfl, rfl, rfl, fun a ha => ?font, fun k hk => s.load_peek_program hk,
    fun a _ ha hout => ?zero, rfl, rfl, rfl⟩
  case font => rw [s.load_peek_of_outside (.inl (by omega)), resetByte, dif_pos ha]
  case zero => rw [s.load_peek_of_outside hout, resetByte, dif_neg ha.not_gt]

/-- Settles O59: the reset state is what the load of the empty program leaves, and a load meets the invariant. -/
theorem resetMeetsTheMachineInvariant : Obligations.ResetMeetsTheMachineInvariant :=
  State.load_inv State.reset (bytes := []) (Nat.zero_le _)

end Sys2Proof.Machine
end
